-- ==== Sys2Proof/Word.lean ====
section
/-! DEFINITION. The two widths of the spec: a byte and a word (00_scope.md rule R8).
Every value the spec shifts, masks or shows on a port is one of these; counts and lengths are `Nat`. -/

namespace Sys2Proof

/-- A byte: "8 bits, an unsigned value 0 to 255" (rule R8); bit 0 is the least significant. -/
abbrev Byte := BitVec 8

/-- A word: "16 bits, an unsigned value 0 to 65535" (rule R8); bit 0 is the least significant. -/
abbrev Word := BitVec 16

end Sys2Proof
end

