-- ==== Sys2Proof/Config.lean ====
section
/-! DEFINITION. The constants the source fixes (00_scope.md rule R6), the sizes the spec fixes (rule R7) and the
one OPEN parameter of the spec, `RX_CAPACITY` (92_eei_decisions.md D8), as a record the state carries.
No register's unspecified content is a free value: it is held as ABSENT, as rule R19 asks (assumption 1). The one free value is the environment's
line frequency (assumption 12). -/

namespace Sys2Proof

/-- The parameters of one instance of the block. `rxCapacity` is the OPEN parameter `RX_CAPACITY` of rule R7: every
statement about a state holds for every value of it (assumption 2). -/
structure Parameters where
  /-- `RX_CAPACITY`: the largest `rx_len` that `DEC.RESP` accepts. -/
  rxCapacity : Nat
deriving DecidableEq, Repr

namespace Config

/-- `POLY` (rule R6): the feedback constant of the reflected algorithm. -/
def poly : Word := 0xA001#16

/-- `CRC_INIT` (rule R6): the initial value of the CRC accumulator. -/
def crcInit : Word := 0xFFFF#16

/-- `SLAVE_MIN` (rule R6). -/
def slaveMin : Nat := 1

/-- `SLAVE_MAX` (rule R6). -/
def slaveMax : Nat := 247

/-- `QTY_MIN` (rule R6). -/
def qtyMin : Nat := 1

/-- `QTY_MAX` (rule R6). -/
def qtyMax : Nat := 125

/-- `MIN_RESP_LEN` (rule R6): the shortest response the decoder accepts, in bytes. -/
def minRespLen : Nat := 5

/-- `REQ_LEN` (rule R6): the length of a request frame, in bytes; the size of the `TX` file (rule R13). -/
def reqLen : Nat := 8

/-- `FC_RIR` (rule R6): the function code Read Input Registers. -/
def fcRir : Byte := 0x04#8

/-- `EXC_BIT` (rule R6): the "high bit" of the function-code byte. -/
def excBit : Byte := 0x80#8

/-- `REG_MAX` (rule R7): the number of entries of the result file `REG`. -/
def regMax : Nat := 127

/-- The default of `RX_CAPACITY` (rule R7, 92_eei_decisions.md D8). -/
def rxCapacityDefault : Nat := 260

/-- The line frequency, "a fixed constant for this device/region, not read from a register" (environment, 43_environment.md rule R127). The source
gives no value (91_not_in_source.md N15), so it is a free value: nothing can be proved of what it is (assumption 12). -/
opaque lineFrequency : Rat

/-- The instance with every open parameter at its default. -/
def default : Parameters := { rxCapacity := rxCapacityDefault }

end Config

end Sys2Proof
end

