-- ==== Sys2Proof/Syntax.lean ====
section
/-! DEFINITION. What the host can present to the block, and what it stands for.
`Instr` has one constructor for each of the ten rows of spec/opcode_table.json: four operations (30_encoding.md rule
R45), two pseudo-operations (rule R63) and four frame formats (rules R48 to R51). `Presented` is the encoded side: the
values of the input ports of 10_state.md rule R20, or the bytes of a frame. Assumptions 4, 5 and 6 say what it means to run a row that is
no operation. -/

namespace Sys2Proof

/-- One constructor per row of spec/opcode_table.json. -/
inductive Instr where
  /-- `CRC.INIT` (rule R70). -/
  | crcInit
  /-- `CRC.UPDATE crc_in` (rule R71). -/
  | crcUpdate (crcIn : Byte)
  /-- `ENC.READ slave_id, func, start_addr, quantity` (rule R86). -/
  | encRead (slaveId func : Byte) (startAddr quantity : Word)
  /-- `DEC.RESP rx[0..n-1]` (rule R97); `rx_len` is the length of the list. -/
  | decResp (rx : List Byte)
  /-- `CRC.MSG b0 ... b(k-1)` (rules R63 and R75). -/
  | crcMsg (bytes : List Byte)
  /-- `ENC.RIR slave, start, qty` (rule R63). -/
  | encRir (slaveId : Byte) (startAddr quantity : Word)
  /-- The request frame, format `REQ` (rule R48), field by field; `crc` is `le16` of its last two bytes. -/
  | req (addr func : Byte) (startAddr quantity crc : Word)
  /-- The Read Input Registers request, format `REQ` with `func = 0x04` (rule R49). -/
  | reqRir (addr : Byte) (startAddr quantity crc : Word)
  /-- The data response frame, format `RSP.DATA` (rule R50): `func` is bits 6:0 of byte 1, whose bit 7 is 0. -/
  | rspData (addr : Byte) (func : BitVec 7) (bc : Byte) (payload : List Byte) (crc : Word)
  /-- The exception response frame, format `RSP.EXC` (rule R51): `func` is bits 6:0 of byte 1, whose bit 7 is 1. -/
  | rspExc (addr : Byte) (func : BitVec 7) (exc : Byte) (crc : Word)
deriving DecidableEq, Repr

/-- The values on the input ports while one operation is presented (10_state.md rule R20); `rx_len` is `rx.length`.
A port the selected operation does not use may hold anything (30_encoding.md rule R46). -/
structure Ports where
  op        : BitVec 2
  crcIn     : Byte
  slaveId   : Byte
  func      : Byte
  startAddr : Word
  quantity  : Word
  rx        : List Byte
deriving DecidableEq, Repr

/-- One thing the host presents, in encoded form (assumption 3). -/
inductive Presented where
  /-- One operation at the ports (rules R20, R45, R46). -/
  | operation (p : Ports)
  /-- One line of a pseudo-operation (rule R63): the operations it expands to, in order. -/
  | line (ps : List Ports)
  /-- A frame of the request side, in byte order (rules R48 and R49). -/
  | request (bytes : List Byte)
  /-- A frame of the response side, in byte order (rules R50 to R52). -/
  | response (bytes : List Byte)
  /-- The source's call `encodeRead(slaveId, functionCode, startAddress, quantity)` on software integers (rule R87). -/
  | call (slaveId functionCode startAddress quantity : Int)
deriving DecidableEq, Repr

/-- What the host does to the block: it presents something, or it applies the reset event, which is "an input event
`reset` outside the operation set" (70_reset_and_hazards.md rule R175). -/
inductive HostEvent where
  | present (p : Presented)
  | reset
deriving DecidableEq, Repr

/-- Why something presented stands for no row of the table. -/
inductive DecodeError where
  /-- A line whose operations are the expansion of no pseudo-operation of rule R63. -/
  | notAPseudoOperation
  /-- Bytes of the request side that are not the eight bytes of format `REQ` (rule R48). -/
  | notARequestFrame
  /-- A call with a `functionCode` outside 0 to 255, which the port cannot carry (rule R87). -/
  | functionCodeTooWide
  /-- A call with a `startAddress` outside 0 to 65535, which the port cannot carry (rule R87). -/
  | startAddressTooWide
deriving DecidableEq, Repr

/-- The status names of 60_exceptions.md rule R150. Code 6 is reserved and has no name. -/
inductive Status where
  | ok
  | invalidParameter
  | shortFrame
  | crcMismatch
  | exceptionResponse
  | malformedPayload
  | none
deriving DecidableEq, Repr

/-- What `encodeRead` returns (41_encode.md rule R85). -/
inductive EncResult where
  | ok (frame : List Byte)
  | invalidParameter
deriving DecidableEq, Repr

/-- What `decodeResponse` returns (42_decode.md rule R96). -/
inductive DecResult where
  | ok (addr func : Byte) (regs : List Word)
  | shortFrame
  | crcMismatch
  | exceptionResponse (code : Byte)
  | malformedPayload
deriving DecidableEq, Repr

/-- What an operation returns to the host in the transaction view (10_state.md rule R10). -/
inductive Returned where
  | nothing
  | enc (r : EncResult)
  | dec (r : DecResult)
deriving DecidableEq, Repr

end Sys2Proof
end

