-- ==== Sys2Proof/Machine/Operands.lean ====
section
/-! DEFINITION. The operand forms: how bytes and words are taken apart and put together (00_scope.md rule R8,
20_memory.md rules R32, R33, R36, R37, 30_encoding.md rules R53 to R55), the byte-space primitive `MemRead`, and the byte layout of
each frame format without its CRC (30_encoding.md rules R47 to R51). -/

namespace Sys2Proof.Machine

/-- `hi8(w) = w[15:8]` (rule R8). -/
def hi8 (w : Word) : Byte := w.extractLsb' 8 8

/-- `lo8(w) = w[7:0]` (rule R8). -/
def lo8 (w : Word) : Byte := w.extractLsb' 0 8

/-- `be16(a, b) = (zext_16(a) << 8) | zext_16(b)` (rules R8 and R53): the first byte is the more significant. -/
def be16 (a b : Byte) : Word := (a.setWidth 16 <<< 8) ||| b.setWidth 16

/-- `le16(a, b) = (zext_16(b) << 8) | zext_16(a)` (rules R8 and R54): the first byte is the less significant. -/
def le16 (a b : Byte) : Word := (b.setWidth 16 <<< 8) ||| a.setWidth 16

/-- `s[i]`, byte `i` of a sequence (rule R8). Every use in the model has `i < s.length`, so the value beyond the end,
which `getD` needs, is never seen (assumption 10). -/
def byteAt (s : List Byte) (i : Nat) : Byte := s.getD i 0#8

/-- `MemRead(space, off, n)` (rule R8): the `n` bytes at offset `off`, in offset order. -/
def memRead (space : List Byte) (off n : Nat) : List Byte := (space.drop off).take n

/-- The CRC field as it is laid out: low byte first (rules R33 and R54). -/
def crcTail (c : Word) : List Byte := [lo8 c, hi8 c]

/-- Bytes 0 to 5 of format `REQ` (rule R48): the 16-bit fields are big-endian (rule R32). -/
def requestBody (addr func : Byte) (startAddr quantity : Word) : List Byte :=
  [addr, func, hi8 startAddr, lo8 startAddr, hi8 quantity, lo8 quantity]

/-- Byte 1 of a response: bit 7 and the seven bits below it (rules R50 and R51). -/
def responseFunc (excSet : Bool) (func : BitVec 7) : Byte := BitVec.ofBool excSet ++ func

/-- Everything before the CRC of format `RSP.DATA` (rule R50). -/
def dataBody (addr : Byte) (func : BitVec 7) (bc : Byte) (payload : List Byte) : List Byte :=
  [addr, responseFunc false func, bc] ++ payload

/-- Everything before the CRC of format `RSP.EXC` (rule R51). -/
def exceptionBody (addr : Byte) (func : BitVec 7) (exc : Byte) : List Byte :=
  [addr, responseFunc true func, exc]

/-- Register words as payload bytes, each big-endian, in frame order (rules R32 and R50). -/
def wordsToBytes : List Word → List Byte
  | [] => []
  | w :: ws => hi8 w :: lo8 w :: wordsToBytes ws

/-- Word `i` of a data response: `be16(s[3 + 2i], s[4 + 2i])` (rules R55 and R103). -/
def registerWord (s : List Byte) (i : Nat) : Word := be16 (byteAt s (3 + 2 * i)) (byteAt s (4 + 2 * i))

/-- The range check of a slave address: 1 to 247, inclusive, unsigned (rules R6 and R85). -/
def slaveInRange (slaveId : Byte) : Bool :=
  Config.slaveMin ≤ slaveId.toNat && slaveId.toNat ≤ Config.slaveMax

/-- The range check of a quantity: 1 to 125, inclusive, unsigned, on all 16 bits (rules R6, R85 and R86). -/
def quantityInRange (quantity : Word) : Bool :=
  Config.qtyMin ≤ quantity.toNat && quantity.toNat ≤ Config.qtyMax

end Sys2Proof.Machine
end

