-- ==== Sys2Proof/Machine/CrcUnit.lean ====
section
/-! DEFINITION. The pure functions of the CRC unit (40_crc.md rules R72 to R74): `crc_shift`, `crc_byte` and `crc16`.
There is no final exclusive or, no complement and no reversal of the result (rule R73). -/

namespace Sys2Proof.Machine

/-- `crc_shift` (rule R72): the bit tested is bit 0 of the value before the shift; zero enters at the top. -/
def crcShift (c : Word) : Word :=
  if c.getLsbD 0 then (c >>> 1) ^^^ Config.poly else c >>> 1

/-- `n` applications of `crc_shift`. -/
def crcShifts : Nat → Word → Word
  | 0, c => c
  | n + 1, c => crcShifts n (crcShift c)

/-- `crc_byte` (rule R72): the byte meets the low byte of the accumulator, then eight shifts. -/
def crcByte (c : Word) (b : Byte) : Word := crcShifts 8 (c ^^^ b.setWidth 16)

/-- The accumulator after the bytes of `s`, in order, from the accumulator `c`. -/
def crcFrom (c : Word) (s : List Byte) : Word := s.foldl crcByte c

/-- `crc16` (rule R74): the CRC of a complete byte sequence, 0xFFFF for the empty one. -/
def crc16 (s : List Byte) : Word := crcFrom Config.crcInit s

end Sys2Proof.Machine
end

