-- ==== Sys2Proof/WellFormed.lean ====
section
/-! DEFINITION. Which terms of `Instr` are in the encoding tables of the spec.
`Instr.encodable`: the term is the name the decoder gives to its own encoding. `Instr.wf`: moreover every field has a value
that its row's format gives it. An ill-formed term still runs (the block rejects bad operands by a status, not by its syntax). -/

namespace Sys2Proof

open Machine

/-- Format `REQ` with `func = 0x04` is the row `REQ.RIR` (rule R49), so `REQ` is the name of the others.
Every other term has an encoding of its own. -/
def Instr.encodable : Instr → Bool
  | .crcInit => true
  | .crcUpdate _ => true
  | .encRead _ _ _ _ => true
  | .decResp _ => true
  | .crcMsg _ => true
  | .encRir _ _ _ => true
  | .req _ func _ _ _ => func != Config.fcRir
  | .reqRir _ _ _ _ => true
  | .rspData _ _ _ _ _ => true
  | .rspExc _ _ _ _ => true

/-- The fields have the values their format gives them, on an instance with parameters `p`: an `rx_len` of at most `RX_CAPACITY`
(rule R46); for a request frame a legal address and quantity and the CRC of bytes 0 to 5 (rule R48); for a data response a byte
count that is the payload's length and the CRC of what precedes it (rule R50); for an exception response the CRC of bytes 0
to 2 (rule R51). -/
def Instr.wf (p : Parameters) : Instr → Bool
  | .crcInit => true
  | .crcUpdate _ => true
  | .encRead _ _ _ _ => true
  | .decResp rx => rx.length ≤ p.rxCapacity
  | .crcMsg _ => true
  | .encRir _ _ _ => true
  | .req addr func startAddr quantity crc =>
      func != Config.fcRir && slaveInRange addr && quantityInRange quantity
        && crc == crc16 (requestBody addr func startAddr quantity)
  | .reqRir addr startAddr quantity crc =>
      slaveInRange addr && quantityInRange quantity
        && crc == crc16 (requestBody addr Config.fcRir startAddr quantity)
  | .rspData addr func bc payload crc =>
      payload.length == bc.toNat && decide (payload.length + 5 ≤ p.rxCapacity)
        && crc == crc16 (dataBody addr func bc payload)
  | .rspExc addr func exc crc =>
      decide (5 ≤ p.rxCapacity) && crc == crc16 (exceptionBody addr func exc)

end Sys2Proof
end

