-- ==== Sys2Proof/Decode.lean ====
section
/-! DEFINITION. From what the host presents to the row of the table it stands for, and back.
Operation decoding is total: "All four codes are used; there is no reserved or illegal select code" (30_encoding.md rule R45).
`encode` is written from the same tables. `decodeTableWord` and `tableWord` read a word numbered as spec/opcode_table.json
numbers its rows (assumption 7). -/

namespace Sys2Proof

open Machine

/-- The ports with every input at zero: what an operation leaves on the ports it does not use. -/
def idlePorts : Ports :=
  { op := 0#2, crcIn := 0#8, slaveId := 0#8, func := 0#8, startAddr := 0#16, quantity := 0#16, rx := [] }

/-- The select codes of rule R45: `CRC.INIT`. -/
def opCrcInit : BitVec 2 := 0b00#2

/-- The select codes of rule R45: `CRC.UPDATE`. -/
def opCrcUpdate : BitVec 2 := 0b01#2

/-- The select codes of rule R45: `ENC.READ`. -/
def opEncRead : BitVec 2 := 0b10#2

/-- The select codes of rule R45: `DEC.RESP`. -/
def opDecResp : BitVec 2 := 0b11#2

/-- One operation at the ports (rules R45 and R46): total, and blind to the ports its row does not list. -/
def readOperation (p : Ports) : Instr :=
  if p.op = opCrcInit then .crcInit
  else if p.op = opCrcUpdate then .crcUpdate p.crcIn
  else if p.op = opEncRead then .encRead p.slaveId p.func p.startAddr p.quantity
  else .decResp p.rx

/-- A pseudo-operation line (rule R63): select code 00 then only 01 is `CRC.MSG`; one 10 with `func` 4 is `ENC.RIR`. -/
def readLine : List Ports → Except DecodeError Instr
  | [] => .error .notAPseudoOperation
  | p :: rest =>
    if p.op = opCrcInit ∧ rest.all (fun q => q.op == opCrcUpdate) then .ok (.crcMsg (rest.map Ports.crcIn))
    else if p.op = opEncRead ∧ p.func = Config.fcRir ∧ rest = [] then
      .ok (.encRir p.slaveId p.startAddr p.quantity)
    else .error .notAPseudoOperation

/-- The eight bytes of format `REQ` (rule R48); with function code 4 the row is `REQ.RIR` (rule R49). -/
def readRequestFrame : List Byte → Except DecodeError Instr
  | [addr, func, startHi, startLo, qtyHi, qtyLo, crcLo, crcHi] =>
    if func = Config.fcRir then .ok (.reqRir addr (be16 startHi startLo) (be16 qtyHi qtyLo) (le16 crcLo crcHi))
    else .ok (.req addr func (be16 startHi startLo) (be16 qtyHi qtyLo) (le16 crcLo crcHi))
  | _ => .error .notARequestFrame

/-- A response by its format (rules R50 to R52): bit 7 of byte 1 clear is `RSP.DATA`, set and five bytes long is `RSP.EXC`.
Bytes of neither format are still what a `DEC.RESP` may be given (rules R95 and R102), and stand for that. -/
def readResponseFrame (bytes : List Byte) : Instr :=
  match bytes with
  | addr :: func :: third :: rest =>
    if rest.length < 2 then .decResp bytes
    else
      let k := rest.length - 2
      let crc := le16 (byteAt rest k) (byteAt rest (k + 1))
      if func &&& Config.excBit = 0#8 then
        .rspData addr (func.extractLsb' 0 7) third (rest.take k) crc
      else if k = 0 then .rspExc addr (func.extractLsb' 0 7) third crc
      else .decResp bytes
  | _ => .decResp bytes

/-- The value a port carries for a validated integer operand (rule R87): the integer itself where the port can carry it, and
otherwise 0, which is outside the legal range too, so that no integer is truncated into a legal one. -/
def validatedPort (n : Nat) (i : Int) : BitVec n :=
  if 0 ≤ i ∧ i < (2 ^ n : Nat) then BitVec.ofInt n i else 0#n

/-- A call of the source's `encodeRead` on software integers (rule R87): `startAddress` and `functionCode` that no port can carry
are refused and never truncated; `slaveId` and `quantity` always reach the validation (assumption 8). -/
def readCall (slaveId functionCode startAddress quantity : Int) : Except DecodeError Instr :=
  if ¬ (0 ≤ functionCode ∧ functionCode ≤ 255) then .error .functionCodeTooWide
  else if ¬ (0 ≤ startAddress ∧ startAddress ≤ 65535) then .error .startAddressTooWide
  else .ok (.encRead (validatedPort 8 slaveId) (BitVec.ofInt 8 functionCode)
    (BitVec.ofInt 16 startAddress) (validatedPort 16 quantity))

/-- The decoder: total, rejecting by name. -/
def decode : Presented → Except DecodeError Instr
  | .operation p => .ok (readOperation p)
  | .line ps => readLine ps
  | .request bytes => readRequestFrame bytes
  | .response bytes => .ok (readResponseFrame bytes)
  | .call slaveId functionCode startAddress quantity => readCall slaveId functionCode startAddress quantity

/-- The ports of one `CRC.UPDATE`. -/
def updatePorts (b : Byte) : Ports := { idlePorts with op := opCrcUpdate, crcIn := b }

/-- The ports of one `ENC.READ`. -/
def encReadPorts (slaveId func : Byte) (startAddr quantity : Word) : Ports :=
  { idlePorts with op := opEncRead, slaveId := slaveId, func := func, startAddr := startAddr, quantity := quantity }

/-- The encoder: the select code and operands of an operation (rules R45 and R46), the expansion of a pseudo-operation (rule
R63), the bytes of a frame (rules R48 to R51). -/
def encode : Instr → Presented
  | .crcInit => .operation { idlePorts with op := opCrcInit }
  | .crcUpdate b => .operation (updatePorts b)
  | .encRead slaveId func startAddr quantity => .operation (encReadPorts slaveId func startAddr quantity)
  | .decResp rx => .operation { idlePorts with op := opDecResp, rx := rx }
  | .crcMsg bytes => .line ({ idlePorts with op := opCrcInit } :: bytes.map updatePorts)
  | .encRir slaveId startAddr quantity => .line [encReadPorts slaveId Config.fcRir startAddr quantity]
  | .req addr func startAddr quantity crc => .request (requestBody addr func startAddr quantity ++ crcTail crc)
  | .reqRir addr startAddr quantity crc => .request (requestBody addr Config.fcRir startAddr quantity ++ crcTail crc)
  | .rspData addr func bc payload crc => .response (dataBody addr func bc payload ++ crcTail crc)
  | .rspExc addr func exc crc => .response (exceptionBody addr func exc ++ crcTail crc)

/-- The `n` bytes of a number whose most significant byte is byte 0 ("the 64-bit value whose most significant byte is byte 0 of
the frame", spec/opcode_table.json). -/
def bytesOfNumber : Nat → Nat → List Byte
  | 0, _ => []
  | n + 1, w => BitVec.ofNat 8 (w / 256 ^ n) :: bytesOfNumber n w

/-- What a word of `nbits` bits of the table presents (assumption 7). Up to 23 bits: an operation, whose select code is bits 1:0, with every
operand zero. 24 bits: the fixed part of `RSP.DATA`, followed by zero bytes up to the shortest frame. Up to 40 bits: the five bytes of
`RSP.EXC`. More: the eight bytes of `REQ` and `REQ.RIR`. -/
def tableWord (nbits w : Nat) : Presented :=
  if nbits < 24 then .operation { idlePorts with op := BitVec.ofNat 2 w }
  else if nbits = 24 then .response (bytesOfNumber 3 w ++ [0#8, 0#8])
  else if nbits ≤ 40 then .response (bytesOfNumber 5 w)
  else .request (bytesOfNumber 8 w)

/-- The instruction the decoder reads from a word numbered as spec/opcode_table.json numbers it. -/
def decodeTableWord (nbits w : Nat) : Option Instr :=
  match decode (tableWord nbits w) with
  | .ok i => some i
  | .error _ => none

end Sys2Proof
end

