-- ==== Sys2Proof/Machine/Flags.lean ====
section
/-! DEFINITION. The status codes of 60_exceptions.md rule R150, the only flags of the block (10_state.md rule R22), which
status each result writes (rules R86 and R97), and the predicates the decoder's checks are made of (42_decode.md rules R96
and R98). -/

namespace Sys2Proof.Machine

/-- The 3-bit code of a status (rule R150). Code 6 is no status's code. -/
def statusCode : Status → BitVec 3
  | .ok => 0#3
  | .invalidParameter => 1#3
  | .shortFrame => 2#3
  | .crcMismatch => 3#3
  | .exceptionResponse => 4#3
  | .malformedPayload => 5#3
  | .none => 7#3

/-- The status that a result of `encodeRead` leaves in `ENC_STATUS` (rule R86). -/
def encResultStatus : EncResult → Status
  | .ok _ => .ok
  | .invalidParameter => .invalidParameter

/-- The status that a result of `decodeResponse` leaves in `DEC_STATUS` (rule R97). -/
def decResultStatus : DecResult → Status
  | .ok _ _ _ => .ok
  | .shortFrame => .shortFrame
  | .crcMismatch => .crcMismatch
  | .exceptionResponse _ => .exceptionResponse
  | .malformedPayload => .malformedPayload

/-- Check 2 of rule R96: the CRC of all bytes but the last two is the last two bytes, read low byte first. -/
def crcMatches (rx : List Byte) : Bool :=
  crc16 (memRead rx 0 (rx.length - 2)) == le16 (byteAt rx (rx.length - 2)) (byteAt rx (rx.length - 1))

/-- Check 3 of rule R96: bit 7 of the function code is set. -/
def exceptionBitSet (rx : List Byte) : Bool := (byteAt rx 1 &&& Config.excBit) != 0#8

/-- Check 4 of rule R96: the byte count is the payload length and is even (rule R100). `rx.length - 5` does not underflow where
the decoder uses this, since check 1 has passed. -/
def payloadShapeOk (rx : List Byte) : Bool :=
  rx.length - 5 == (byteAt rx 2).toNat && (byteAt rx 2).getLsbD 0 == false

end Sys2Proof.Machine
end

