-- ==== Sys2Proof/Machine/State.lean ====
section
/-! DEFINITION. The state of the block (10_state.md rules R11 to R18), the ways a step can stop, and the state after reset (rule
R25). A register that the spec leaves unspecified is ABSENT, `none`: "a model should represent the field as absent (an option
type holding nothing) and must not give it a value, in particular not zero" (rule R19; assumption 1). The block has no program
counter, mode, control register or hidden state (rules R21 to R24). -/

namespace Sys2Proof.Machine

/-- Everything the spec gives the machine. The first two fields are the model's own: the parameters of the instance (assumption 2), which no
step changes, and what the host has presented and the block has not yet performed (assumption 3). -/
structure State where
  /-- The open parameter `RX_CAPACITY` (00_scope.md rule R7). -/
  params    : Parameters
  /-- What the host presents, in its order (20_memory.md rule R41); the next one is first. -/
  pending   : List HostEvent
  /-- `CRC`, the accumulator (rule R11). -/
  crc       : Word
  /-- `ENC_STATUS` (rule R12). -/
  encStatus : BitVec 3
  /-- `TX[0..7]`, the request frame buffer (rule R13). -/
  tx        : Vector (Option Byte) 8
  /-- `DEC_STATUS` (rule R14). -/
  decStatus : BitVec 3
  /-- `R_ADDR` (rule R15). -/
  rAddr     : Option Byte
  /-- `R_FUNC` (rule R15). -/
  rFunc     : Option Byte
  /-- `EXC` (rule R16). -/
  exc       : Option Byte
  /-- `REG_COUNT` (rule R17). -/
  regCount  : Option (BitVec 7)
  /-- `REG[0..126]`, the decoded register words (rule R18). -/
  reg       : Vector (Option Word) 127
deriving DecidableEq, Repr

/-- Why a step cannot be made at all. -/
inductive Fault where
  /-- The host presents nothing more: the run has ended (70_reset_and_hazards.md rule R186). Raised by `step` alone. Safe: the block
  does nothing where the model stops. -/
  | endOfRun
deriving DecidableEq, Repr

/-- What was presented has no meaning for the block. A failure of an operation is no refusal: it is a status (rule R153). -/
inductive Refusal where
  /-- An instruction whose meaning is not written. Raised by `exec`'s arms alone. Safe: the model stops. No arm raises it now. -/
  | notModelled (mnemonic : String)
  /-- What was presented stands for no row of the table. Raised by `step` alone. Safe: the model stops. -/
  | undecodable (e : DecodeError)
  /-- A response longer than `RX_CAPACITY`: "a model must **refuse** it (no next state)" (42_decode.md rule R95). Raised by `DEC.RESP`
  and by the response frames. Safe: the model stops. -/
  | rxOverCapacity (rxLen : Nat)
deriving DecidableEq, Repr

/-- A file of `n` registers of which none holds a specified value (rule R19). -/
def absentFile {α : Type} (n : Nat) : Vector (Option α) n := Vector.replicate n none

/-- The machine right after reset, nothing presented (rule R25), with every open parameter at its default (rule R7). -/
def State.reset : State :=
  { params    := Config.default
    pending   := []
    crc       := Config.crcInit
    encStatus := statusCode .none
    tx        := absentFile 8
    decStatus := statusCode .none
    rAddr     := none
    rFunc     := none
    exc       := none
    regCount  := none
    reg       := absentFile 127 }

end Sys2Proof.Machine
end

