-- ==== Sys2Proof/Machine/Ops.lean ====
section
/-! DEFINITION. The shared operations over the registers: writing a register file, latching what the encoder and the decoder
return (10_state.md rule R19), failing (60_exceptions.md rule R153), resetting (70_reset_and_hazards.md rule R175), taking the next thing the host presents.
The block has no exceptions, no traps and no return from one: a failure writes a status and makes data unspecified, and
"no control is transferred anywhere" (rules R153 and R154). `failEncoder` and `failDecoder` are that one shared operation, for each unit. -/

namespace Sys2Proof.Machine

/-- A file of `n` registers that holds the values of `l` in order; the entries past its end are unspecified. -/
def fileOf {α : Type} (n : Nat) (l : List α) : Vector (Option α) n :=
  Vector.ofFn fun i : Fin n => l[i.val]?

/-- The entries of a file that hold a value, in order. -/
def presentEntries {α : Type} {n : Nat} (v : Vector (Option α) n) : List α := v.toList.filterMap id

/-- `CRC <- c` (rule R11). -/
def State.setCrc (s : State) (c : Word) : State := { s with crc := c }

/-- One `CRC.UPDATE` on the accumulator (40_crc.md rule R71). -/
def State.foldByte (s : State) (b : Byte) : State := s.setCrc (crcByte s.crc b)

/-- `MemWrite(TX, 0, 8, frame)` and the status `OK` (41_encode.md rule R86). -/
def State.writeFrame (s : State) (frame : List Byte) : State :=
  { s with tx := fileOf 8 frame, encStatus := statusCode .ok }

/-- A failure of the encoder (rule R153): the status is written, `TX` becomes unspecified, nothing else changes. -/
def State.failEncoder (s : State) (st : Status) : State :=
  { s with tx := absentFile 8, encStatus := statusCode st }

/-- What `ENC.READ` latches (rules R19 and R86). -/
def State.latchEnc (s : State) (r : EncResult) : State :=
  match r with
  | .ok frame => s.writeFrame frame
  | .invalidParameter => s.failEncoder (encResultStatus r)

/-- A failure of the decoder (rule R153): the status is written, every data register of the decoder becomes unspecified, nothing
else changes. -/
def State.failDecoder (s : State) (st : Status) : State :=
  { s with
    decStatus := statusCode st
    rAddr := none
    rFunc := none
    exc := none
    regCount := none
    reg := absentFile 127 }

/-- The registers after a successful decode (42_decode.md rule R97). -/
def State.writeRegisters (s : State) (addr func : Byte) (regs : List Word) : State :=
  { s with
    decStatus := statusCode .ok
    rAddr := some addr
    rFunc := some func
    exc := none
    regCount := some (BitVec.ofNat 7 regs.length)
    reg := fileOf 127 regs }

/-- The failure `ExceptionResponse(code)`: it alone records data, `EXC <- code`, `R_ADDR <- rx[0]`, `R_FUNC <- rx[1]`
(rules R97 and R153). -/
def State.writeException (s : State) (rx : List Byte) (code : Byte) : State :=
  { s.failDecoder .exceptionResponse with rAddr := rx[0]?, rFunc := rx[1]?, exc := some code }

/-- What `DEC.RESP` on the bytes `rx` latches (rules R19 and R97). -/
def State.latchDec (s : State) (rx : List Byte) (r : DecResult) : State :=
  match r with
  | .ok addr func regs => s.writeRegisters addr func regs
  | .exceptionResponse code => s.writeException rx code
  | .shortFrame => s.failDecoder (decResultStatus r)
  | .crcMismatch => s.failDecoder (decResultStatus r)
  | .malformedPayload => s.failDecoder (decResultStatus r)

/-- The reset event (rule R175): every register at its reset value, whatever the block held; the instance and what the host
presents next are not the block's registers. -/
def State.resetBlock (s : State) : State :=
  { State.reset with params := s.params, pending := s.pending }

/-- The next thing the host presents, and the state with it taken (rule R41). -/
def State.takeEvent (s : State) : Option (HostEvent × State) :=
  match s.pending with
  | [] => none
  | e :: rest => some (e, { s with pending := rest })

/-- The state with `e` presented next. -/
def State.presentNext (s : State) (e : HostEvent) : State := { s with pending := e :: s.pending }

end Sys2Proof.Machine
end

