-- ==== Sys2Proof/Machine/CrcOps.lean ====
section
/-! DEFINITION. The meanings of the CRC unit's rows: `CRC.INIT`, `CRC.UPDATE` (40_crc.md rules R70 and R71) and the
pseudo-operation `CRC.MSG` (rule R75). None of them has a status and none can fail (60_exceptions.md rule R150). -/

namespace Sys2Proof.Machine

/-- `CRC.INIT` (rule R70): `CRC <- 0xFFFF`. -/
def execCrcInit (s : State) : Host.Outcome State Fault Refusal := .next (s.setCrc Config.crcInit)

/-- `CRC.UPDATE b` (rule R71): `CRC <- crc_byte(CRC, b)`. -/
def execCrcUpdate (b : Byte) (s : State) : Host.Outcome State Fault Refusal := .next (s.foldByte b)

/-- `CRC.MSG b0 ... b(k-1)` (30_encoding.md rule R63): `CRC.INIT`, then one `CRC.UPDATE` for each byte, in order
(assumption 5). -/
def execCrcMsg (bytes : List Byte) (s : State) : Host.Outcome State Fault Refusal :=
  .next (bytes.foldl State.foldByte (s.setCrc Config.crcInit))

end Sys2Proof.Machine
end

