-- ==== Sys2Proof/Machine/Decoder.lean ====
section
/-! DEFINITION. The response decoder: `decodeResponse` (42_decode.md rule R96) and the meanings of the rows that run it:
`DEC.RESP` (rule R97) and the frame formats `RSP.DATA` and `RSP.EXC` (30_encoding.md rules R50 and R51). -/

namespace Sys2Proof.Machine

/-- `decodeResponse` (rule R96), defined for every length: the four checks in exactly this order, and no field is looked at before the CRC has
validated (rule R98). -/
def decodeResponse (rx : List Byte) : DecResult :=
  if rx.length < Config.minRespLen then .shortFrame
  else if !crcMatches rx then .crcMismatch
  else if exceptionBitSet rx then .exceptionResponse (byteAt rx 2)
  else if !payloadShapeOk rx then .malformedPayload
  else .ok (byteAt rx 0) (byteAt rx 1) ((List.range ((byteAt rx 2).toNat / 2)).map (registerWord rx))

/-- `DEC.RESP` on the bytes `rx` (rules R95 and R97): refused beyond `RX_CAPACITY`, and otherwise the result is latched. -/
def State.decodeInto (s : State) (rx : List Byte) : Host.Outcome State Fault Refusal :=
  if rx.length ≤ s.params.rxCapacity then .next (s.latchDec rx (decodeResponse rx))
  else .refused (.rxOverCapacity rx.length)

/-- `DEC.RESP rx[0..n-1]` (rule R97). -/
def execDecResp (rx : List Byte) (s : State) : Host.Outcome State Fault Refusal := s.decodeInto rx

/-- Format `RSP.DATA` (rule R50), "Parsed by `DEC.RESP`": the frame with these fields is decoded (assumption 4). -/
def execRspData (addr : Byte) (func : BitVec 7) (bc : Byte) (payload : List Byte) (crc : Word) (s : State) :
    Host.Outcome State Fault Refusal :=
  s.decodeInto (dataBody addr func bc payload ++ crcTail crc)

/-- Format `RSP.EXC` (rule R51), "Parsed by `DEC.RESP`": the frame with these fields is decoded (assumption 4). -/
def execRspExc (addr : Byte) (func : BitVec 7) (exc : Byte) (crc : Word) (s : State) :
    Host.Outcome State Fault Refusal :=
  s.decodeInto (exceptionBody addr func exc ++ crcTail crc)

end Sys2Proof.Machine
end

