-- ==== Sys2Proof/Machine/Encoder.lean ====
section
/-! DEFINITION. The request encoder: `encodeRead` (41_encode.md rule R85) and the meanings of the rows that run it:
`ENC.READ` (rule R86), `ENC.RIR` (30_encoding.md rule R63) and the frame formats `REQ` and `REQ.RIR` (rules R48 and R49). -/

namespace Sys2Proof.Machine

/-- `encodeRead` (rule R85): the ranges of `slave_id` and `quantity` are checked, `func` and `start_addr` are not (rule R58). -/
def encodeRead (slaveId func : Byte) (startAddr quantity : Word) : EncResult :=
  if slaveInRange slaveId && quantityInRange quantity then
    let body := requestBody slaveId func startAddr quantity
    .ok (body ++ crcTail (crc16 body))
  else .invalidParameter

/-- `ENC.READ slave_id, func, start_addr, quantity` (rule R86). -/
def execEncRead (slaveId func : Byte) (startAddr quantity : Word) (s : State) : Host.Outcome State Fault Refusal :=
  .next (s.latchEnc (encodeRead slaveId func startAddr quantity))

/-- `ENC.RIR slave, start, qty` (rule R63): `ENC.READ slave, 4, start, qty`. -/
def execEncRir (slaveId : Byte) (startAddr quantity : Word) (s : State) : Host.Outcome State Fault Refusal :=
  .next (s.latchEnc (encodeRead slaveId Config.fcRir startAddr quantity))

/-- Format `REQ` (rule R48), "Produced by `ENC.READ`; never parsed by the block": the operation that produces a frame with these fields.
The CRC of the frame produced is the encoder's own, whatever the last field says (assumption 4). -/
def execReq (addr func : Byte) (startAddr quantity _crc : Word) (s : State) : Host.Outcome State Fault Refusal :=
  .next (s.latchEnc (encodeRead addr func startAddr quantity))

/-- Format `REQ` with function code 4 (rule R49), the operation that produces it (assumption 4). -/
def execReqRir (addr : Byte) (startAddr quantity _crc : Word) (s : State) : Host.Outcome State Fault Refusal :=
  .next (s.latchEnc (encodeRead addr Config.fcRir startAddr quantity))

end Sys2Proof.Machine
end

