-- ==== Sys2Proof/Machine/Dispatch.lean ====
section
/-! DEFINITION. One arm per row of spec/opcode_table.json, each a direct call of its meaning. -/

namespace Sys2Proof.Machine

def exec (i : Instr) (s : State) : Host.Outcome State Fault Refusal :=
  match i with
  -- operations (30_encoding.md rule R45)
  | .crcInit => Sys2Proof.Machine.execCrcInit s
  | .crcUpdate crcIn => Sys2Proof.Machine.execCrcUpdate crcIn s
  | .encRead slaveId func startAddr quantity => Sys2Proof.Machine.execEncRead slaveId func startAddr quantity s
  | .decResp rx => Sys2Proof.Machine.execDecResp rx s
  -- pseudo-operations (rule R63)
  | .crcMsg bytes => Sys2Proof.Machine.execCrcMsg bytes s
  | .encRir slaveId startAddr quantity => Sys2Proof.Machine.execEncRir slaveId startAddr quantity s
  -- frame formats (rules R48 to R51)
  | .req addr func startAddr quantity crc => Sys2Proof.Machine.execReq addr func startAddr quantity crc s
  | .reqRir addr startAddr quantity crc => Sys2Proof.Machine.execReqRir addr startAddr quantity crc s
  | .rspData addr func bc payload crc => Sys2Proof.Machine.execRspData addr func bc payload crc s
  | .rspExc addr func exc crc => Sys2Proof.Machine.execRspExc addr func exc crc s

end Sys2Proof.Machine
end

