-- ==== Sys2Proof/Machine/Step.lean ====
section
/-! DEFINITION. One step: the next thing the host presents is taken and performed, as one indivisible step (10_state.md rule R10,
20_memory.md rules R38 and R41). There is no program counter and no fetch (rules R21 and R43): the host's queue is where operations come
from (assumption 3). -/

namespace Sys2Proof.Machine

/-- One step of the block. -/
def step (s : State) : Host.Outcome State Fault Refusal :=
  match s.takeEvent with
  | none => .fault .endOfRun
  | some (.reset, t) => .next t.resetBlock
  | some (.present p, t) =>
    match decode p with
    | .ok i => exec i t
    | .error e => .refused (.undecodable e)

/-- The state in which the host presents, next, what a word of spec/opcode_table.json stands for (assumptions 3 and 7). -/
def State.withFetchWord (s : State) (nbits w : Nat) : State := s.presentNext (.present (tableWord nbits w))

end Sys2Proof.Machine
end

