-- ==== Sys2Proof/Machine/Assembler.lean ====
section
/-! DEFINITION. ENVIRONMENT, not the block (00_scope.md rule R4): the ResponseAssembler of 43_environment.md rules R118 to R125, a finite
state machine with a generation token for each request. Nothing here is in State. -/

namespace Sys2Proof.Machine

/-- The timers' values in the source's unnamed time units (rules R120 and R124) and the completion mode (rule R125; 93_implementation_defined.md
entries U7 and U10). -/
structure AssemblerConfig where
  quietWindow  : Nat
  deadline     : Nat
  lengthDriven : Bool
deriving DecidableEq, Repr

/-- The source's defaults, with the length-driven check it recommends as default (rules R120, R124 and R125). -/
def AssemblerConfig.default : AssemblerConfig := { quietWindow := 200, deadline := 2000, lengthDriven := true }

/-- The phases that last (rule R119): `Complete` and `TimedOut` are left at once for Idle (rules R120 and R124), so they are outputs. `quiet` is the time since the
latest chunk, nothing before the first. -/
inductive AssemblerPhase where
  | idle
  | awaiting (generation quantity : Nat) (buffer : List Byte) (quiet : Option Nat) (elapsed : Nat)
deriving DecidableEq, Repr

/-- The assembler: its phase, and the generation the next request gets (rule R123). -/
structure AssemblerState where
  phase          : AssemblerPhase
  nextGeneration : Nat
deriving DecidableEq, Repr

/-- Initial state Idle (rule R119). -/
def AssemblerState.initial : AssemblerState := { phase := .idle, nextGeneration := 0 }

/-- What reaches the assembler: a request is written, a chunk arrives tagged with a generation, one time unit passes, the caller gives up
("a caller-level or deadline-driven timeout releases the Assembler to Idle", rule R124), the Transport reports an error (rule R116). -/
inductive AssemblerEvent where
  | write (quantity : Nat)
  | chunk (generation : Nat) (bytes : List Byte)
  | tick
  | callerTimeout
  | transportError
deriving DecidableEq, Repr

/-- What the assembler answers. -/
inductive AssemblerOutput where
  | nothing
  | started (generation : Nat)
  /-- "a new request issued before Idle is reached is rejected" (rule R122). -/
  | rejected
  /-- The buffer is handed to `decodeResponse` (rule R121). -/
  | complete (bytes : List Byte)
  /-- The request fails, and no bytes are handed over (rule R124). -/
  | timedOut
  /-- The Transport has failed, under a request or while Idle, and no bytes are handed over (rules R116 and R142; assumption 9). -/
  | transportFailed
  /-- Bytes of a stale generation (rule R123). -/
  | discarded
deriving DecidableEq, Repr

/-- The expected length of a data response to a request for `quantity` registers (rule R125). -/
def expectedDataLength (quantity : Nat) : Nat := 5 + 2 * quantity

/-- The length of an exception response (rules R51 and R125). -/
def exceptionLength : Nat := 5

/-- The expected length, once byte 1 tells the format (rules R52 and R125). -/
def expectedLength (quantity : Nat) (buffer : List Byte) : Option Nat :=
  match buffer with
  | _ :: func :: _ => some (if func.getLsbD 7 then exceptionLength else expectedDataLength quantity)
  | _ => none

/-- The length-driven check says that the frame is complete (rule R125). -/
def lengthReached (cfg : AssemblerConfig) (quantity : Nat) (buffer : List Byte) : Bool :=
  cfg.lengthDriven && (expectedLength quantity buffer).any (fun n => decide (n ≤ buffer.length))

/-- The quiet window may declare the buffer complete: always in the compatibility mode, and with the length-driven check "only when that length is
not yet known" (rule R125). -/
def windowApplies (cfg : AssemblerConfig) (quantity : Nat) (buffer : List Byte) : Bool :=
  !cfg.lengthDriven || (expectedLength quantity buffer).isNone

/-- A chunk of the current generation (rules R120, R121 and R125). A delivery of no bytes is no chunk. -/
def acceptChunk (cfg : AssemblerConfig) (st : AssemblerState) (generation quantity : Nat) (buffer bytes : List Byte)
    (quiet : Option Nat) (elapsed : Nat) : AssemblerState × AssemblerOutput :=
  if bytes = [] then ({ st with phase := .awaiting generation quantity buffer quiet elapsed }, .nothing)
  else if lengthReached cfg quantity (buffer ++ bytes) then ({ st with phase := .idle }, .complete (buffer ++ bytes))
  else ({ st with phase := .awaiting generation quantity (buffer ++ bytes) (some 0) elapsed }, .nothing)

/-- One time unit passes while a response is awaited (rules R120, R124 and R125). Where both timers fire in one unit, the deadline wins
(assumption 9). -/
def passTime (cfg : AssemblerConfig) (st : AssemblerState) (generation quantity : Nat) (buffer : List Byte)
    (quiet : Option Nat) (elapsed : Nat) : AssemblerState × AssemblerOutput :=
  if cfg.deadline ≤ elapsed + 1 then ({ st with phase := .idle }, .timedOut)
  else if windowApplies cfg quantity buffer && quiet.any (fun n => decide (cfg.quietWindow ≤ n + 1)) then ({ st with phase := .idle }, .complete buffer)
  else ({ st with phase := .awaiting generation quantity buffer (quiet.map (· + 1)) (elapsed + 1) }, .nothing)

/-- One transition of the assembler (rules R119 to R125). What a Transport error and a caller's timeout do while it is Idle, on which the spec is silent, is
the model's choice: both leave it Idle, and the first is answered `transportFailed` (assumption 9). -/
def assemblerStep (cfg : AssemblerConfig) (st : AssemblerState) (ev : AssemblerEvent) : AssemblerState × AssemblerOutput :=
  match st.phase, ev with
  | .idle, .write quantity =>
    ({ phase := .awaiting st.nextGeneration quantity [] none 0, nextGeneration := st.nextGeneration + 1 },
      .started st.nextGeneration)
  | .idle, .chunk _ _ => (st, .discarded)
  | .idle, .tick => (st, .nothing)
  | .idle, .callerTimeout => (st, .nothing)
  | .idle, .transportError => (st, .transportFailed)
  | .awaiting _ _ _ _ _, .write _ => (st, .rejected)
  | .awaiting generation quantity buffer quiet elapsed, .chunk g bytes =>
    if g = generation then acceptChunk cfg st generation quantity buffer bytes quiet elapsed else (st, .discarded)
  | .awaiting generation quantity buffer quiet elapsed, .tick => passTime cfg st generation quantity buffer quiet elapsed
  | .awaiting _ _ _ _ _, .callerTimeout => ({ st with phase := .idle }, .timedOut)
  | .awaiting _ _ _ _ _, .transportError => ({ st with phase := .idle }, .transportFailed)

/-- The outputs of a sequence of events. -/
def assemblerRun (cfg : AssemblerConfig) : AssemblerState → List AssemblerEvent → AssemblerState × List AssemblerOutput
  | st, [] => (st, [])
  | st, ev :: rest =>
    let r := assemblerStep cfg st ev
    let tail := assemblerRun cfg r.1 rest
    (tail.1, r.2 :: tail.2)

/-- How the wait for one response ends. -/
inductive AwaitEnd where
  | complete (bytes : List Byte)
  | timedOut
  | transportFailed
deriving DecidableEq, Repr

/-- An output that ends the wait. -/
def AssemblerOutput.ends : AssemblerOutput → Option AwaitEnd
  | .complete bytes => some (.complete bytes)
  | .timedOut => some .timedOut
  | .transportFailed => some .transportFailed
  | .nothing => none
  | .started _ => none
  | .rejected => none
  | .discarded => none

/-- The time an event takes. -/
def AssemblerEvent.duration : AssemblerEvent → Nat
  | .tick => 1
  | .write _ => 0
  | .chunk _ _ => 0
  | .callerTimeout => 0
  | .transportError => 0

/-- The events from time `now` on, up to the first that ends the wait: the assembler then, the time then, and the end (nothing where the events
run out first). -/
def awaitEnd (cfg : AssemblerConfig) : AssemblerState → Nat → List AssemblerEvent → AssemblerState × Nat × Option AwaitEnd
  | st, now, [] => (st, now, none)
  | st, now, ev :: rest =>
    let r := assemblerStep cfg st ev
    match r.2.ends with
    | some ending => (r.1, now + ev.duration, some ending)
    | none => awaitEnd cfg r.1 (now + ev.duration) rest

/-- The wait for one response: the events the link gives, then silence for as long as the deadline can last (rule R124). -/
def awaitResponse (cfg : AssemblerConfig) (st : AssemblerState) (now : Nat) (events : List AssemblerEvent) :
    AssemblerState × Nat × Option AwaitEnd :=
  awaitEnd cfg st now (events ++ List.replicate (cfg.deadline + 1) .tick)

end Sys2Proof.Machine
end

