-- ==== Sys2Proof/Machine/Outputs.lean ====
section
/-! DEFINITION. What the host can see: the output ports (10_state.md rule R20), which of them a host may use (70_reset_and_hazards.md
rule R181), and the transaction view with its reading back from the registers (10_state.md rules R10 and R19). -/

namespace Sys2Proof.Machine

/-- The output ports of rule R20: each shows its register, and reading one changes nothing (20_memory.md rule R39). -/
structure OutPorts where
  crc       : Word
  encStatus : BitVec 3
  tx        : Vector (Option Byte) 8
  decStatus : BitVec 3
  rAddr     : Option Byte
  rFunc     : Option Byte
  exc       : Option Byte
  regCount  : Option (BitVec 7)
  reg       : Vector (Option Word) 127
deriving DecidableEq, Repr

/-- The output ports in a state (rule R20). -/
def State.outPorts (s : State) : OutPorts :=
  { crc := s.crc, encStatus := s.encStatus, tx := s.tx, decStatus := s.decStatus, rAddr := s.rAddr, rFunc := s.rFunc,
    exc := s.exc, regCount := s.regCount, reg := s.reg }

/-- A host may use `TX` (rules R13 and R181). -/
def State.mayUseTx (s : State) : Bool := s.encStatus == statusCode .ok

/-- A host may use `REG_COUNT` and `REG` (rules R17, R18 and R181). -/
def State.mayUseReg (s : State) : Bool := s.decStatus == statusCode .ok

/-- A host may use `EXC` (rules R16 and R181). -/
def State.mayUseExc (s : State) : Bool := s.decStatus == statusCode .exceptionResponse

/-- A host may use `R_ADDR` and `R_FUNC` (rules R15 and R181). -/
def State.mayUseHeader (s : State) : Bool := s.mayUseReg || s.mayUseExc

/-- The value an instruction returns in the transaction view (rule R10). -/
def returned : Instr → Returned
  | .crcInit => .nothing
  | .crcUpdate _ => .nothing
  | .encRead slaveId func startAddr quantity => .enc (encodeRead slaveId func startAddr quantity)
  | .decResp rx => .dec (decodeResponse rx)
  | .crcMsg _ => .nothing
  | .encRir slaveId startAddr quantity => .enc (encodeRead slaveId Config.fcRir startAddr quantity)
  | .req addr func startAddr quantity _ => .enc (encodeRead addr func startAddr quantity)
  | .reqRir addr startAddr quantity _ => .enc (encodeRead addr Config.fcRir startAddr quantity)
  | .rspData addr func bc payload crc => .dec (decodeResponse (dataBody addr func bc payload ++ crcTail crc))
  | .rspExc addr func exc crc => .dec (decodeResponse (exceptionBody addr func exc ++ crcTail crc))

/-- The latest result of the encoder, read back from `ENC_STATUS` and `TX` (rule R19); nothing where no `ENC.READ` has executed. -/
def State.encView (s : State) : Option EncResult :=
  if s.encStatus = statusCode .ok then some (.ok (presentEntries s.tx))
  else if s.encStatus = statusCode .invalidParameter then some .invalidParameter
  else none

/-- The latest result of the decoder, read back from `DEC_STATUS` and the decoder's data registers (rule R19); nothing where no
`DEC.RESP` has executed. -/
def State.decView (s : State) : Option DecResult :=
  if s.decStatus = statusCode .ok then
    match s.rAddr, s.rFunc, s.regCount with
    | some addr, some func, some k => some (.ok addr func ((presentEntries s.reg).take k.toNat))
    | _, _, _ => none
  else if s.decStatus = statusCode .shortFrame then some .shortFrame
  else if s.decStatus = statusCode .crcMismatch then some .crcMismatch
  else if s.decStatus = statusCode .exceptionResponse then s.exc.map .exceptionResponse
  else if s.decStatus = statusCode .malformedPayload then some .malformedPayload
  else none

/-- A sequence of instructions, performed one after another: "the result of the sequence is the result of applying the operations' rules one
after another to the state" (20_memory.md rule R41; 70_reset_and_hazards.md rule R186). -/
def runAll : List Instr → State → Host.Outcome State Fault Refusal
  | [], s => .next s
  | i :: rest, s =>
    match exec i s with
    | .next t => runAll rest t
    | .fault r => .fault r
    | .refused r => .refused r

/-- The values a sequence of instructions returns, in the transaction view (rules R10 and R186). -/
def returnedAll (is : List Instr) : List Returned := is.map returned

end Sys2Proof.Machine
end

