-- ==== Sys2Proof/Machine/RegisterDecoder.lean ====
section
/-! DEFINITION. ENVIRONMENT, not the block (00_scope.md rule R4): the RegisterDecoder and the register map of 43_environment.md rules
R126 to R133. Nothing here is in State. Scaled values are exact rationals (92_eei_decisions.md D29). -/

namespace Sys2Proof.Machine

/-- The 18 quantities of the register map (rule R131). -/
inductive Quantity where
  | status
  | pv1Voltage
  | pv1Current
  | pv2Voltage
  | pv2Current
  | pvTotalPower
  | acTotalPower
  | temperature
  | houseConsumption
  | backupConsumption
  | gridActivePower
  | inverterAcPower
  | gridImportedEnergy
  | gridExportedEnergy
  | batteryPower
  | batterySoc
  | batteryVoltage
  | batteryCurrent
deriving DecidableEq, Repr

/-- The units the source gives (rule R133; 91_not_in_source.md N20): "Nothing for current, temperature, SOC, house or grid power". -/
inductive PhysicalUnit where
  | volt
  | kilowattHour
  | watt
deriving DecidableEq, Repr

/-- The groups of a full cycle (rule R134). -/
inductive Group where
  | status
  | pv
  | ac
  | house
  | grid
  | battery
deriving DecidableEq, Repr

/-- The scales of the map (rules R127 and R131; 90_conflicts.md entry C6). -/
inductive Scale where
  | unscaled
  | div10
  | div1000
  | div100times1000
deriving DecidableEq, Repr

/-- One entry of the register map (rules R131 and R133). `group` is the spec's own inference (91_not_in_source.md N13); `unit` is nothing where the
source gives none. -/
structure MapEntry where
  address : Nat
  span    : Nat
  scale   : Scale
  signed  : Bool
  group   : Group
  unit    : Option PhysicalUnit
deriving DecidableEq, Repr

/-- The register map (rule R131), "static and never derived at runtime" (rule R133). -/
def registerMap : Quantity → MapEntry
  | .status             => ⟨33095, 1, .unscaled, false, .status, none⟩
  | .pv1Voltage         => ⟨33049, 1, .div10, false, .pv, some .volt⟩
  | .pv1Current         => ⟨33050, 1, .div10, false, .pv, none⟩
  | .pv2Voltage         => ⟨33051, 1, .div10, false, .pv, some .volt⟩
  | .pv2Current         => ⟨33052, 1, .div10, false, .pv, none⟩
  | .pvTotalPower       => ⟨33057, 2, .unscaled, false, .pv, none⟩
  | .acTotalPower       => ⟨33079, 1, .div100times1000, false, .ac, some .watt⟩
  | .temperature        => ⟨33093, 1, .div10, false, .ac, none⟩
  | .houseConsumption   => ⟨33147, 1, .unscaled, false, .house, none⟩
  | .backupConsumption  => ⟨33148, 1, .unscaled, false, .house, none⟩
  | .gridActivePower    => ⟨33130, 2, .unscaled, true, .grid, none⟩
  | .inverterAcPower    => ⟨33151, 2, .unscaled, true, .grid, none⟩
  | .gridImportedEnergy => ⟨33169, 2, .div1000, false, .grid, some .kilowattHour⟩
  | .gridExportedEnergy => ⟨33173, 2, .div1000, false, .grid, some .kilowattHour⟩
  | .batteryPower       => ⟨33149, 2, .unscaled, true, .battery, none⟩
  | .batterySoc         => ⟨33139, 1, .unscaled, false, .battery, none⟩
  | .batteryVoltage     => ⟨33133, 1, .div10, false, .battery, some .volt⟩
  | .batteryCurrent     => ⟨33134, 1, .div10, false, .battery, none⟩

/-- The quantities in the order of the source's list (rule R131), which is the order of a full cycle (rule R134). -/
def allQuantities : List Quantity :=
  [.status, .pv1Voltage, .pv1Current, .pv2Voltage, .pv2Current, .pvTotalPower, .acTotalPower, .temperature,
   .houseConsumption, .backupConsumption, .gridActivePower, .inverterAcPower, .gridImportedEnergy, .gridExportedEnergy,
   .batteryPower, .batterySoc, .batteryVoltage, .batteryCurrent]

/-- The groups in the order of a full cycle (rule R134). -/
def allGroups : List Group := [.status, .pv, .ac, .house, .grid, .battery]

/-- The reads of one group, in order (rules R131 and R134). -/
def groupReads (g : Group) : List Quantity := allQuantities.filter fun q => (registerMap q).group == g

/-- The operands of one read (rule R136): what the caller of an exchange asks for. -/
structure ReadRequest where
  slaveId   : Byte
  func      : Byte
  startAddr : Word
  quantity  : Word
deriving DecidableEq, Repr

/-- The operation that encodes a read: `ENC.READ` (rule R136). -/
def ReadRequest.instr (r : ReadRequest) : Instr := .encRead r.slaveId r.func r.startAddr r.quantity

/-- The request for one entry, addressed to a device (rules R49, R130 and R131): the listed address as it stands, no offset subtracted. -/
def requestFor (slaveId : Byte) (q : Quantity) : ReadRequest :=
  { slaveId := slaveId, func := Config.fcRir, startAddr := BitVec.ofNat 16 (registerMap q).address,
    quantity := BitVec.ofNat 16 (registerMap q).span }

/-- `(high << 16) | low` (rule R128; 20_memory.md rule R35). -/
def combine32 (high low : Word) : BitVec 32 := (high.setWidth 32 <<< 16) ||| low.setWidth 32

/-- The raw integer of an entry (rules R126, R128 and R129): a `signed` entry is the 32-bit pattern read as two's complement. Nothing where
the number of words is not the entry's span. -/
def rawInteger (e : MapEntry) (regs : List Word) : Option Int :=
  match regs with
  | [w] => if e.span = 1 then some w.toNat else none
  | [high, low] =>
    if e.span = 2 then
      if e.signed then some (combine32 high low).toInt else some (combine32 high low).toNat
    else none
  | _ => none

/-- Scaling, exact (rules R126 and R127). -/
def applyScale : Scale → Int → Rat
  | .unscaled, v => v
  | .div10, v => v / 10
  | .div1000, v => v / 1000
  | .div100times1000, v => v / 100 * 1000

/-- The raw integer of a quantity from the words a response carried. `zeroWhenEmpty` is the policy of rule R143: an empty register array may be
defaulted to zero, and nothing else is. -/
def quantityInteger (zeroWhenEmpty : Bool) (q : Quantity) (regs : List Word) : Option Int :=
  if regs = [] then (if zeroWhenEmpty then some 0 else none) else rawInteger (registerMap q) regs

/-- The physical value of a quantity from the words a response carried (rules R126 to R131). -/
def decodeQuantity (zeroWhenEmpty : Bool) (q : Quantity) (regs : List Word) : Option Rat :=
  (quantityInteger zeroWhenEmpty q regs).map (applyScale (registerMap q).scale)

/-- The status enumeration (rule R132). -/
inductive InverterStatus where
  | standby
  | checking
  | normal
  | fault
  | permanentFault
  | unknown
deriving DecidableEq, Repr

/-- The meaning of a status register value (rule R132). -/
def inverterStatus (code : Nat) : InverterStatus :=
  match code with
  | 0 => .standby
  | 1 => .checking
  | 2 => .normal
  | 3 => .fault
  | 4 => .permanentFault
  | _ => .unknown

/-- The text of a status (rule R132). -/
def inverterStatusText : InverterStatus → String
  | .standby => "Standby"
  | .checking => "Checking"
  | .normal => "Normal"
  | .fault => "Fault"
  | .permanentFault => "Permanent Fault"
  | .unknown => "Unknown"

/-- A status as the source shows it, `{code, text}` (rule R132). -/
structure StatusReading where
  code : Nat
  text : String
deriving DecidableEq, Repr

/-- The status reading from the words a response to the status request carried (rule R132). -/
def decodeStatus (zeroWhenEmpty : Bool) (regs : List Word) : Option StatusReading :=
  (quantityInteger zeroWhenEmpty .status regs).map fun v =>
    { code := v.toNat, text := inverterStatusText (inverterStatus v.toNat) }

end Sys2Proof.Machine
end

