-- ==== Sys2Proof/Machine/Poll.lean ====
section
/-! DEFINITION. ENVIRONMENT, not the block (00_scope.md rule R4): the system of 43_environment.md rule R115 put together, with its error kinds (rule
R142), the connection of a session (rule R140), the exchange that runs the block, the pacing and the retries (rules R135, R136, R138), the
groups, the cycle and the snapshots (rules R134, R137, R144). The Transport is an "external collaborator": a `Link` stands for it and for the device.
Nothing here is in State. Assumptions 9, 11, 13 and 14 say what is the model's choice. -/

namespace Sys2Proof.Machine

/-! ### Errors -/

/-- The error kinds of the whole system (rule R142). -/
inductive SystemError where
  | connectionError
  | notConnected
  | timeout
  | crcMismatch
  | exceptionResponse (code : Byte)
  | malformedFrame
  | invalidParameter
deriving DecidableEq, Repr

/-- A request as the caller sees it (60_exceptions.md rule R155): the frame, or the caller's kind of the failure. -/
def requestOf : EncResult → Except SystemError (List Byte)
  | .ok frame => .ok frame
  | .invalidParameter => .error .invalidParameter

/-- What one exchange ends with: the words of the response, or the caller's error. -/
abbrev ExchangeResult := Except SystemError (List Word)

/-- A response as the caller sees it (rule R155): `ShortFrame` and `MalformedPayload` both are `MalformedFrame`. The address and function code of
an `Ok` response are dropped without a comparison with the request, which is the model's choice (assumption 14). -/
def responseOf : DecResult → ExchangeResult
  | .ok _ _ regs => .ok regs
  | .shortFrame => .error .malformedFrame
  | .crcMismatch => .error .crcMismatch
  | .exceptionResponse code => .error (.exceptionResponse code)
  | .malformedPayload => .error .malformedFrame

/-! ### The connection of a session -/

/-- The connection of one session (rule R140): not open, live, or ended by a connection failure, which "is terminal for the session". -/
inductive Connection where
  | notOpen
  | live
  | ended
deriving DecidableEq, Repr

/-- Opening the session (rule R140): `ready` is the Transport's answer, "await ready-or-error". -/
def Connection.connect (ready : Bool) : Connection → Connection × Option SystemError
  | .notOpen => if ready then (.live, none) else (.ended, some .connectionError)
  | .live => (.live, none)
  | .ended => (.ended, some .connectionError)

/-- A transport-level error and the kind it surfaces as (rules R116, R140 and R142). -/
def Connection.lose : Connection → Connection × Option SystemError
  | .notOpen => (.notOpen, none)
  | .live => (.ended, some .connectionError)
  | .ended => (.ended, none)

/-- "close is idempotent" and always succeeds (rules R116 and R140). -/
def Connection.close : Connection → Connection
  | .notOpen => .notOpen
  | .live => .notOpen
  | .ended => .ended

/-! ### The engine -/

/-- What the caller and the source fix for one engine. The slave address (91_not_in_source.md N16) and the retry count and delay (N28) have no default,
the timers have the source's (93_implementation_defined.md U8 to U10). -/
structure EngineConfig where
  slaveId       : Byte
  assembler     : AssemblerConfig
  /-- The minimum inter-command delay (rule R135). -/
  commandDelay  : Nat
  /-- How often a failed exchange is re-issued (rule R138). -/
  retries       : Nat
  /-- The delay before each re-issue (rule R138). -/
  retryDelay    : Nat
  /-- The policy of rule R143 for an empty register array. -/
  zeroWhenEmpty : Bool
deriving DecidableEq, Repr

/-- The default inter-command delay, in time units (rule R135). -/
def commandDelayDefault : Nat := 200

/-- An engine with the source's timers. -/
def EngineConfig.withDefaultTimers (slaveId : Byte) (retries retryDelay : Nat) (zeroWhenEmpty : Bool) : EngineConfig :=
  { slaveId := slaveId, assembler := AssemblerConfig.default, commandDelay := commandDelayDefault, retries := retries,
    retryDelay := retryDelay, zeroWhenEmpty := zeroWhenEmpty }

/-- The system around one block: the block, the assembler, the connection, the time, and when the latest exchange completed. -/
structure Engine where
  block       : State
  assembler   : AssemblerState
  connection  : Connection
  now         : Nat
  completedAt : Option Nat
deriving DecidableEq, Repr

/-- The engine before anything has happened. -/
def Engine.initial : Engine :=
  { block := State.reset, assembler := AssemblerState.initial, connection := .notOpen, now := 0, completedAt := none }

/-- The rest of the world for one request (rules R116 and R117): from the request's generation, the time of its write and the frame, the events that reach
the assembler while its response is awaited, or nothing for a `WriteError`. -/
abbrev Link := Nat → Nat → List Byte → Option (List AssemblerEvent)

/-- What an operation of the engine answers: the engine after it and a result. There is none where the block refuses the bytes (42_decode.md rule R95). -/
abbrev Answer (α : Type) := Option (Engine × Except SystemError α)

/-- Time passes. -/
def Engine.wait (e : Engine) (n : Nat) : Engine := { e with now := e.now + n }

/-- The minimum inter-command delay has passed "between completion of one exchange and issuance of the next" (rule R135). -/
def mayIssue (delay : Nat) (completedAt : Option Nat) (now : Nat) : Bool :=
  completedAt.all fun c => decide (c + delay ≤ now)

/-- The pacing policy (rule R135): wait until the next exchange may be issued. -/
def Engine.pace (delay : Nat) (e : Engine) : Engine :=
  if mayIssue delay e.completedAt e.now then e else { e with now := e.completedAt.getD e.now + delay }

/-- An exchange completes now. -/
def Engine.complete (e : Engine) : Engine := { e with completedAt := some e.now }

/-- The connection is lost under an exchange, which fails with `ConnectionError` (rules R140 and R142). -/
def Engine.fail (e : Engine) : Answer (List Word) :=
  let r := e.connection.lose
  some ({ e with connection := r.1 }, .error (r.2.getD .notConnected))

/-! ### One exchange -/

/-- The wait has ended (rules R121, R124 and R136): the bytes are handed to `DEC.RESP`, whose result is read back from the block's registers, or no
`DEC.RESP` is issued at all. `R_ADDR` and `R_FUNC` are not compared with the request: that is the model's choice (assumption 14). -/
def Engine.receive (e : Engine) : AwaitEnd → Answer (List Word)
  | .timedOut => some (e, .error .timeout)
  | .transportFailed => e.fail
  | .complete bytes =>
    match exec (.decResp bytes) e.block with
    | .next s => s.decView.map fun r => ({ e with block := s }, responseOf r)
    | .fault _ => none
    | .refused _ => none

/-- The frame is written, the response awaited and received (rules R120 and R136). The assembler rejects a write while it is not Idle (rule R122), under
an error the source does not name (91_not_in_source.md N14): then there is no answer. -/
def Engine.transmit (cfg : EngineConfig) (link : Link) (quantity : Nat) (frame : List Byte) (e : Engine) : Answer (List Word) :=
  match e.assembler.phase with
  | .awaiting _ _ _ _ _ => none
  | .idle =>
    match link e.assembler.nextGeneration e.now frame with
    | none => e.complete.fail
    | some events =>
      let r := awaitResponse cfg.assembler (assemblerStep cfg.assembler e.assembler (.write quantity)).1 e.now events
      r.2.2.bind fun ending => ({ e with assembler := r.1, now := r.2.1 } : Engine).complete.receive ending

/-- One exchange (rule R136): "encode → write via Transport → await assembly → decode". Without a live session it fails fast (rule R140), and a request
that the block rejects is never written. The write keeps the minimum delay (rule R135). -/
def exchange (cfg : EngineConfig) (link : Link) (request : ReadRequest) (e : Engine) : Answer (List Word) :=
  match e.connection with
  | .notOpen => some (e, .error .notConnected)
  | .ended => some (e, .error .notConnected)
  | .live =>
    match exec request.instr e.block with
    | .next s =>
      match s.encView.map requestOf with
      | some (.ok frame) =>
        (({ e with block := s } : Engine).pace cfg.commandDelay).transmit cfg link request.quantity.toNat frame
      | some (.error k) => some ({ e with block := s }, .error k)
      | none => none
    | .fault _ => none
    | .refused _ => none

/-- The retry policy (rule R138): "re-issues an identical failed exchange up to N times before surfacing the final error", each time after the
configured delay. Every error is retried, a connection failure among them, though it "is terminal for the session" (rule R140): the re-issues in the
ended session fail fast, so that `NotConnected` is the final error. That is the model's choice (assumption 13). -/
def exchangeWithRetries (cfg : EngineConfig) (link : Link) (request : ReadRequest) : Nat → Engine → Answer (List Word)
  | 0, e => exchange cfg link request e
  | n + 1, e =>
    (exchange cfg link request e).bind fun r =>
      match r.2 with
      | .ok words => some (r.1, .ok words)
      | .error _ => exchangeWithRetries cfg link request n (r.1.wait cfg.retryDelay)

/-! ### Reads, groups and the cycle -/

/-- One quantity as read: the words of the response, and the physical value they decode to. -/
structure Reading where
  quantity : Quantity
  words    : List Word
  value    : Option Rat
deriving DecidableEq

/-- One read (rule R136): encode, write, await, decode, interpret. -/
def readQuantity (cfg : EngineConfig) (link : Link) (q : Quantity) (e : Engine) : Answer Reading :=
  (exchangeWithRetries cfg link (requestFor cfg.slaveId q) cfg.retries e).map fun r =>
    (r.1, r.2.map fun words => { quantity := q, words := words, value := decodeQuantity cfg.zeroWhenEmpty q words })

/-- Reads one after another, "each read strictly sequential" (rule R134); the first failing read fails them all (rule R137). -/
def readQuantities (cfg : EngineConfig) (link : Link) : List Quantity → Engine → Answer (List Reading)
  | [], e => some (e, .ok [])
  | q :: rest, e =>
    (readQuantity cfg link q e).bind fun r =>
      match r.2 with
      | .error k => some (r.1, .error k)
      | .ok reading => (readQuantities cfg link rest r.1).map fun t => (t.1, t.2.map (reading :: ·))

/-- The reads of one group (rules R134 and R137), made into a snapshot. -/
def readGroup {α : Type} (make : List Reading → α) (cfg : EngineConfig) (link : Link) (g : Group) (e : Engine) : Answer α :=
  (readQuantities cfg link (groupReads g) e).map fun r => (r.1, r.2.map make)

/-- The value read for a quantity, nothing where it was not read or is absent. -/
def valueIn (readings : List Reading) (q : Quantity) : Option Rat :=
  (readings.find? fun r => r.quantity == q).bind Reading.value

/-- The snapshot of group Status (rules R132 and R144). The fields of this snapshot and of the five below are the model's choice: the source gives no types
(91_not_in_source.md N28; assumption 11). -/
structure StatusSnapshot where
  status : Option StatusReading
deriving DecidableEq

/-- The snapshot of group PV (rule R144; assumption 11). -/
structure PvSnapshot where
  pv1Voltage : Option Rat
  pv1Current : Option Rat
  pv2Voltage : Option Rat
  pv2Current : Option Rat
  totalPower : Option Rat
deriving DecidableEq

/-- The snapshot of group AC (rule R144; assumption 11), with the constant line frequency (rule R127; assumption 12). -/
structure AcSnapshot where
  totalPower    : Option Rat
  temperature   : Option Rat
  lineFrequency : Rat
deriving DecidableEq

/-- The snapshot of group House (rule R144; assumption 11). -/
structure HouseSnapshot where
  houseConsumption  : Option Rat
  backupConsumption : Option Rat
deriving DecidableEq

/-- The snapshot of group Grid (rule R144; assumption 11). -/
structure GridSnapshot where
  activePower     : Option Rat
  inverterAcPower : Option Rat
  importedEnergy  : Option Rat
  exportedEnergy  : Option Rat
deriving DecidableEq

/-- The snapshot of group Battery (rule R144; assumption 11). -/
structure BatterySnapshot where
  power   : Option Rat
  soc     : Option Rat
  voltage : Option Rat
  current : Option Rat
deriving DecidableEq

/-- The accessor of group Status (rule R144). -/
def readStatus (cfg : EngineConfig) (link : Link) (e : Engine) : Answer StatusSnapshot :=
  readGroup (fun rs => { status := (rs.find? fun r => r.quantity == .status).bind fun r => decodeStatus cfg.zeroWhenEmpty r.words })
    cfg link .status e

/-- The accessor of group PV (rule R144). -/
def readPv (cfg : EngineConfig) (link : Link) (e : Engine) : Answer PvSnapshot :=
  readGroup (fun rs =>
    { pv1Voltage := valueIn rs .pv1Voltage, pv1Current := valueIn rs .pv1Current, pv2Voltage := valueIn rs .pv2Voltage,
      pv2Current := valueIn rs .pv2Current, totalPower := valueIn rs .pvTotalPower }) cfg link .pv e

/-- The accessor of group AC (rule R144). -/
def readAc (cfg : EngineConfig) (link : Link) (e : Engine) : Answer AcSnapshot :=
  readGroup (fun rs =>
    { totalPower := valueIn rs .acTotalPower, temperature := valueIn rs .temperature, lineFrequency := Config.lineFrequency })
    cfg link .ac e

/-- The accessor of group House (rule R144). -/
def readHouse (cfg : EngineConfig) (link : Link) (e : Engine) : Answer HouseSnapshot :=
  readGroup (fun rs => { houseConsumption := valueIn rs .houseConsumption, backupConsumption := valueIn rs .backupConsumption })
    cfg link .house e

/-- The accessor of group Grid (rule R144). -/
def readGrid (cfg : EngineConfig) (link : Link) (e : Engine) : Answer GridSnapshot :=
  readGroup (fun rs =>
    { activePower := valueIn rs .gridActivePower, inverterAcPower := valueIn rs .inverterAcPower,
      importedEnergy := valueIn rs .gridImportedEnergy, exportedEnergy := valueIn rs .gridExportedEnergy }) cfg link .grid e

/-- The accessor of group Battery (rule R144). -/
def readBattery (cfg : EngineConfig) (link : Link) (e : Engine) : Answer BatterySnapshot :=
  readGroup (fun rs =>
    { power := valueIn rs .batteryPower, soc := valueIn rs .batterySoc, voltage := valueIn rs .batteryVoltage,
      current := valueIn rs .batteryCurrent }) cfg link .battery e

/-- The result of one full cycle (rules R137 and R144): every group's own result is kept, the errors of failed groups among them. The timestamp is in the
engine's time units, which is the model's choice (91_not_in_source.md N28; assumption 11). -/
structure DomainSnapshot where
  timestamp : Nat
  status    : Except SystemError StatusSnapshot
  pv        : Except SystemError PvSnapshot
  ac        : Except SystemError AcSnapshot
  house     : Except SystemError HouseSnapshot
  grid      : Except SystemError GridSnapshot
  battery   : Except SystemError BatterySnapshot

/-- The aggregate "fails overall if any group fails" (rule R137). -/
def DomainSnapshot.succeeds (d : DomainSnapshot) : Bool :=
  d.status.isOk && d.pv.isOk && d.ac.isOk && d.house.isOk && d.grid.isOk && d.battery.isOk

/-- The aggregate accessor (rules R134, R137 and R144): all groups in the order of the cycle, whatever fails among them. -/
def readCycle (cfg : EngineConfig) (link : Link) (e : Engine) : Option (Engine × DomainSnapshot) := do
  let status ← readStatus cfg link e
  let pv ← readPv cfg link status.1
  let ac ← readAc cfg link pv.1
  let house ← readHouse cfg link ac.1
  let grid ← readGrid cfg link house.1
  let battery ← readBattery cfg link grid.1
  return (battery.1,
    { timestamp := battery.1.now, status := status.2, pv := pv.2, ac := ac.2, house := house.2, grid := grid.2,
      battery := battery.2 })

/-! ### The session -/

/-- The scoped acquisition (rule R140): open, run, and "guaranteed release on close along all exit paths", on a failure to open, on an error of the
run and on success. `ready` is the Transport's answer to the opening. -/
def withSession {α : Type} (ready : Bool) (run : Engine → Answer α) (e : Engine) : Answer α :=
  match e.connection.connect ready with
  | (c, some k) => some ({ e with connection := c.close }, .error k)
  | (c, none) =>
    (run { e with connection := c }).map fun r => ({ r.1 with connection := r.1.connection.close }, r.2)

end Sys2Proof.Machine
end

