-- ==== Sys2Proof/Machine/Text.lean ====
section
/-! DEFINITION. The textual syntax of operations (30_encoding.md rules R62 and R63): one line of text to what it presents. It is the
host's notation, not state and not a step of the block. Text is a list of characters. -/

namespace Sys2Proof.Machine

/-- Why a line of text is no operation of rule R62. -/
inductive TextError where
  | unknownMnemonic
  | badOperands
  /-- A number that the 8-bit port of `CRC.UPDATE` cannot carry. -/
  | operandTooWide
deriving DecidableEq, Repr

/-- "`;` starts a comment" (rule R62). -/
def withoutComment (line : List Char) : List Char := line.takeWhile (· != ';')

/-- The pieces of a text between separators; `acc` is the piece being read, last character first. -/
def piecesFrom (isSep : Char → Bool) (acc : List Char) : List Char → List (List Char)
  | [] => [acc.reverse]
  | c :: cs => if isSep c then acc.reverse :: piecesFrom isSep [] cs else piecesFrom isSep (c :: acc) cs

/-- The words of a text: its non-empty pieces between blanks. -/
def textWords (text : List Char) : List (List Char) :=
  (piecesFrom (fun c => c == ' ' || c == '\t') [] text).filter (fun w => !w.isEmpty)

/-- The value of a digit in a base of at most 16. -/
def digitValue (base : Nat) (c : Char) : Option Nat :=
  let n := c.toNat
  let v := if 48 ≤ n ∧ n ≤ 57 then some (n - 48)
    else if 65 ≤ n ∧ n ≤ 70 then some (n - 55)
    else if 97 ≤ n ∧ n ≤ 102 then some (n - 87)
    else none
  v.bind fun d => if d < base then some d else none

/-- The value of a run of digits, most significant first, continuing from `acc`. -/
def digitsFrom (base : Nat) (acc : Nat) : List Char → Option Nat
  | [] => some acc
  | c :: cs => (digitValue base c).bind fun d => digitsFrom base (acc * base + d) cs

/-- "Numbers are decimal or `0x` hexadecimal" (rule R62). -/
def textNumber : List Char → Option Nat
  | [] => none
  | '0' :: 'x' :: [] => none
  | '0' :: 'x' :: ds => digitsFrom 16 0 ds
  | ds => digitsFrom 10 0 ds

/-- A byte "written as two-digit hexadecimal without prefix" (rule R62). -/
def textFrameByte : List Char → Option Byte
  | [a, b] => (digitsFrom 16 0 [a, b]).map (BitVec.ofNat 8)
  | _ => none

/-- The bytes of a frame, separated by spaces (rule R62). -/
def textFrame (ws : List (List Char)) : Option (List Byte) := ws.mapM textFrameByte

/-- Numbers separated by commas (rule R62). -/
def textNumbers (text : List Char) : Option (List Nat) :=
  (piecesFrom (· == ',') [] text).mapM fun piece =>
    match textWords piece with
    | [w] => textNumber w
    | _ => none

/-- The four operands of `ENC.READ` fit their ports (rule R46). -/
def fitsEncodePorts (slaveId func startAddr quantity : Nat) : Bool :=
  decide (slaveId < 2 ^ 8) && decide (func < 2 ^ 8) && decide (startAddr < 2 ^ 16) && decide (quantity < 2 ^ 16)

/-- `ENC.READ` as text (rule R62): an operation where every operand fits its port, and a call on software integers otherwise (rule R87). -/
def textEncRead (slaveId func startAddr quantity : Nat) : Presented :=
  if fitsEncodePorts slaveId func startAddr quantity then
    .operation (encReadPorts (BitVec.ofNat 8 slaveId) (BitVec.ofNat 8 func) (BitVec.ofNat 16 startAddr)
      (BitVec.ofNat 16 quantity))
  else .call slaveId func startAddr quantity

/-- `ENC.RIR` as text (rule R63): the line that expands to `ENC.READ slave, 4, start, qty`. -/
def textEncRir (slaveId startAddr quantity : Nat) : Presented :=
  if fitsEncodePorts slaveId 4 startAddr quantity then
    .line [encReadPorts (BitVec.ofNat 8 slaveId) Config.fcRir (BitVec.ofNat 16 startAddr) (BitVec.ofNat 16 quantity)]
  else .call slaveId 4 startAddr quantity

/-- The operands of a mnemonic, the text after its name. -/
def textOperands (mnemonic operands : List Char) : Except TextError Presented :=
  if mnemonic = ['C', 'R', 'C', '.', 'I', 'N', 'I', 'T'] then
    if textWords operands = [] then .ok (encode .crcInit) else .error .badOperands
  else if mnemonic = ['C', 'R', 'C', '.', 'U', 'P', 'D', 'A', 'T', 'E'] then
    match textNumbers operands with
    | some [b] => if b < 2 ^ 8 then .ok (encode (.crcUpdate (BitVec.ofNat 8 b))) else .error .operandTooWide
    | _ => .error .badOperands
  else if mnemonic = ['E', 'N', 'C', '.', 'R', 'E', 'A', 'D'] then
    match textNumbers operands with
    | some [slaveId, func, startAddr, quantity] => .ok (textEncRead slaveId func startAddr quantity)
    | _ => .error .badOperands
  else if mnemonic = ['D', 'E', 'C', '.', 'R', 'E', 'S', 'P'] then
    match textFrame (textWords operands) with
    | some rx => .ok (encode (.decResp rx))
    | none => .error .badOperands
  else if mnemonic = ['C', 'R', 'C', '.', 'M', 'S', 'G'] then
    match textFrame (textWords operands) with
    | some bytes => .ok (encode (.crcMsg bytes))
    | none => .error .badOperands
  else if mnemonic = ['E', 'N', 'C', '.', 'R', 'I', 'R'] then
    match textNumbers operands with
    | some [slaveId, startAddr, quantity] => .ok (textEncRir slaveId startAddr quantity)
    | _ => .error .badOperands
  else .error .unknownMnemonic

/-- One line of text (rule R62): nothing for a line that is blank or only a comment. -/
def readText (line : List Char) : Except TextError (Option Presented) :=
  let body := (withoutComment line).dropWhile (fun c => c == ' ' || c == '\t')
  if body = [] then .ok none
  else
    let mnemonic := body.takeWhile (fun c => c != ' ' && c != '\t')
    (textOperands mnemonic (body.drop mnemonic.length)).map some

end Sys2Proof.Machine
end

