-- ==== Sys2Proof/Safety.lean ====
section
/-! DEFINITION. What a sound state of the block is, in the terms the statements use: the values the status registers can hold (10_state.md
rules R12 and R14), and which data registers hold a value under which status (rules R13, R15 to R19). -/

namespace Sys2Proof.Machine

/-- No entry of a file holds a specified value. -/
def allAbsent {α : Type} {n : Nat} (v : Vector (Option α) n) : Prop := ∀ i : Fin n, v[i] = none

/-- Exactly the first `k` entries of a file hold a value. -/
def filledTo {α : Type} {n : Nat} (v : Vector (Option α) n) (k : Nat) : Prop :=
  ∀ i : Fin n, v[i].isSome = decide (i.val < k)

/-- The encoder's registers are sound (rules R12, R13 and R19; 41_encode.md rule R88): a status that is no reserved code; after `OK`,
`TX` holds eight bytes that are a legal request with its CRC; otherwise no entry of `TX` holds a value. -/
def State.encoderSound (s : State) : Prop :=
  (s.encStatus = 0#3 ∧
      ∃ addr func : Byte, ∃ startAddr quantity : Word,
        1 ≤ addr.toNat ∧ addr.toNat ≤ 247 ∧ 1 ≤ quantity.toNat ∧ quantity.toNat ≤ 125 ∧
          s.tx.toList = (requestBody addr func startAddr quantity
            ++ crcTail (crc16 (requestBody addr func startAddr quantity))).map some)
    ∨ (s.encStatus = 1#3 ∧ allAbsent s.tx)
    ∨ (s.encStatus = 7#3 ∧ allAbsent s.tx)

/-- The decoder's registers are sound (rules R14 to R19): after `OK` the header and exactly `REG_COUNT` words hold values, the function code
has bit 7 clear and `EXC` holds none; after `ExceptionResponse` the header and `EXC` hold values, the function code has bit 7 set, and
`REG_COUNT` and `REG` hold none; after any other status, no reserved code among them, no data register holds a value. -/
def State.decoderSound (s : State) : Prop :=
  (s.decStatus = 0#3 ∧ s.rAddr.isSome ∧ s.exc = none ∧
      (∃ f, s.rFunc = some f ∧ f.getLsbD 7 = false) ∧ ∃ k, s.regCount = some k ∧ filledTo s.reg k.toNat)
    ∨ (s.decStatus = 4#3 ∧ s.rAddr.isSome ∧ s.exc.isSome ∧
      (∃ f, s.rFunc = some f ∧ f.getLsbD 7 = true) ∧ s.regCount = none ∧ allAbsent s.reg)
    ∨ ((s.decStatus = 2#3 ∨ s.decStatus = 3#3 ∨ s.decStatus = 5#3 ∨ s.decStatus = 7#3) ∧
      s.rAddr = none ∧ s.rFunc = none ∧ s.exc = none ∧ s.regCount = none ∧ allAbsent s.reg)

/-- The invariant of the block. -/
def State.Inv (s : State) : Prop := s.encoderSound ∧ s.decoderSound

/-- Two states have the same registers in the encoder: `ENC_STATUS` and `TX`. -/
def sameEncoder (s t : State) : Prop := t.encStatus = s.encStatus ∧ t.tx = s.tx

/-- Two states have the same registers in the decoder: `DEC_STATUS`, `R_ADDR`, `R_FUNC`, `EXC`, `REG_COUNT`, `REG`. -/
def sameDecoder (s t : State) : Prop :=
  t.decStatus = s.decStatus ∧ t.rAddr = s.rAddr ∧ t.rFunc = s.rFunc ∧ t.exc = s.exc ∧ t.regCount = s.regCount ∧ t.reg = s.reg

/-- Two states belong to the same instance and have the same things presented next. -/
def sameHost (s t : State) : Prop := t.params = s.params ∧ t.pending = s.pending

end Sys2Proof.Machine
end

