-- ==== Sys2Proof/Certificates/Slice0/Obligations.lean ====
section
/-! DEFINITION. The statements for the provers. Each docstring names the rule of spec/ that the statement formalises, or says that it is
the model's choice and names the log entry. -/

open Sys2Proof Sys2Proof.Machine

/-! ### Encoding -/

/-- Words written out from the spec's encodings (30_encoding.md rules R45, R46, R48 to R51 and R63) decode to what they stand for. How
a pseudo-operation and a frame are presented and named is the model's choice (assumption 6). -/
def Obligations.DecodesWordsOfTheSpec : Prop :=
  decode (.operation ⟨0b00#2, 0x55#8, 0x11#8, 0x22#8, 0x3333#16, 0x4444#16, [0x66#8]⟩) = .ok .crcInit
  ∧ decode (.operation ⟨0b01#2, 0x81#8, 0x11#8, 0x22#8, 0x3333#16, 0x4444#16, [0x66#8]⟩) = .ok (.crcUpdate 0x81#8)
  ∧ decode (.operation ⟨0b10#2, 0x55#8, 0x01#8, 0x04#8, 0x8119#16, 0x0001#16, [0x66#8]⟩)
      = .ok (.encRead 0x01#8 0x04#8 33049#16 1#16)
  ∧ decode (.operation ⟨0b11#2, 0x55#8, 0x11#8, 0x22#8, 0x3333#16, 0x4444#16, [0x01#8, 0x04#8, 0x01#8, 0xE3#8]⟩)
      = .ok (.decResp [0x01#8, 0x04#8, 0x01#8, 0xE3#8])
  ∧ decode (.line [⟨0b00#2, 0#8, 0#8, 0#8, 0#16, 0#16, []⟩, ⟨0b01#2, 0x01#8, 0#8, 0#8, 0#16, 0#16, []⟩,
      ⟨0b01#2, 0x04#8, 0#8, 0#8, 0#16, 0#16, []⟩]) = .ok (.crcMsg [0x01#8, 0x04#8])
  ∧ decode (.line [⟨0b10#2, 0#8, 0x01#8, 0x04#8, 0x817D#16, 0x0002#16, []⟩]) = .ok (.encRir 0x01#8 33149#16 2#16)
  ∧ decode (.request [0x01#8, 0x03#8, 0x00#8, 0x00#8, 0x00#8, 0x0A#8, 0xC5#8, 0xCD#8])
      = .ok (.req 0x01#8 0x03#8 0#16 10#16 0xCDC5#16)
  ∧ decode (.request [0x01#8, 0x04#8, 0x81#8, 0x19#8, 0x00#8, 0x01#8, 0xC8#8, 0x31#8])
      = .ok (.reqRir 0x01#8 33049#16 1#16 0x31C8#16)
  ∧ decode (.response [0x01#8, 0x04#8, 0x02#8, 0x09#8, 0x92#8, 0x3E#8, 0xCD#8])
      = .ok (.rspData 0x01#8 0x04#7 0x02#8 [0x09#8, 0x92#8] 0xCD3E#16)
  ∧ decode (.response [0x01#8, 0x84#8, 0x02#8, 0xC2#8, 0xC1#8]) = .ok (.rspExc 0x01#8 0x04#7 0x02#8 0xC1C2#16)

/-- Rule R45: all four select codes are used, and operation decoding is total. -/
def Obligations.OperationDecodingIsTotal : Prop :=
  ∀ p : Ports,
    (p.op = 0b00#2 → decode (.operation p) = .ok .crcInit)
    ∧ (p.op = 0b01#2 → decode (.operation p) = .ok (.crcUpdate p.crcIn))
    ∧ (p.op = 0b10#2 → decode (.operation p) = .ok (.encRead p.slaveId p.func p.startAddr p.quantity))
    ∧ (p.op = 0b11#2 → decode (.operation p) = .ok (.decResp p.rx))
    ∧ ∃ i, decode (.operation p) = .ok i

/-- Decode and encode agree on every instruction that has an encoding of its own, with every operand at every value. Which terms have one,
and how lines and frames are presented, is the model's choice (assumption 6). -/
def Obligations.DecodeEncodeRoundTrip : Prop :=
  ∀ i : Instr, i.encodable = true → decode (encode i) = .ok i

/-- No bit of a frame is dropped: whatever frame the decoder reads, the encoder writes the same bytes again; a response of neither format is kept
whole, as the operand of `DEC.RESP`, and bytes of the request side decode exactly where there are eight. What becomes of response bytes of neither format, and
that request bytes of another length stand for nothing, is the model's choice (assumption 6). -/
def Obligations.EncodeDecodeKeepsFrames : Prop :=
  (∀ (bytes : List Byte) (i : Instr), decode (.request bytes) = .ok i → encode i = .request bytes)
  ∧ (∀ (bytes : List Byte) (i : Instr), decode (.response bytes) = .ok i →
      encode i = .response bytes ∨ i = .decResp bytes)
  ∧ (∀ bytes : List Byte, (∃ i, decode (.request bytes) = .ok i) ↔ bytes.length = 8)

/-- Rule R46: "operands a row does not list are ignored by that operation". -/
def Obligations.UnlistedOperandsAreIgnored : Prop :=
  (∀ p q : Ports, p.op = 0b00#2 → q.op = 0b00#2 → decode (.operation p) = decode (.operation q))
  ∧ (∀ p q : Ports, p.op = 0b01#2 → q.op = 0b01#2 → p.crcIn = q.crcIn →
      decode (.operation p) = decode (.operation q))
  ∧ (∀ p q : Ports, p.op = 0b10#2 → q.op = 0b10#2 → p.slaveId = q.slaveId → p.func = q.func →
      p.startAddr = q.startAddr → p.quantity = q.quantity → decode (.operation p) = decode (.operation q))
  ∧ (∀ p q : Ports, p.op = 0b11#2 → q.op = 0b11#2 → p.rx = q.rx → decode (.operation p) = decode (.operation q))

/-- Rule R87: a call on software integers is never truncated. A `functionCode` or `startAddress` that no port carries gets no result; every other
call is `ENC.READ` on exactly those integers where `slaveId` and `quantity` are in range, and ends in `InvalidParameter` where one is not. That a call
with both faults gets no result, and not `InvalidParameter`, is the model's choice (assumption 8): rule R87 gives no precedence. -/
def Obligations.SoftwareIntegersAreNeverTruncated : Prop :=
  ∀ slaveId functionCode startAddress quantity : Int,
    let call := Presented.call slaveId functionCode startAddress quantity
    (¬ (0 ≤ functionCode ∧ functionCode ≤ 255) ∨ ¬ (0 ≤ startAddress ∧ startAddress ≤ 65535) → ∃ e, decode call = .error e)
    ∧ (0 ≤ functionCode → functionCode ≤ 255 → 0 ≤ startAddress → startAddress ≤ 65535 →
        ∃ i, decode call = .ok i ∧
          ((1 ≤ slaveId ∧ slaveId ≤ 247 ∧ 1 ≤ quantity ∧ quantity ≤ 125) →
            ∃ (a f : Byte) (st q : Word), i = .encRead a f st q ∧ (a.toNat : Int) = slaveId ∧
              (f.toNat : Int) = functionCode ∧ (st.toNat : Int) = startAddress ∧ (q.toNat : Int) = quantity)
          ∧ (¬ (1 ≤ slaveId ∧ slaveId ≤ 247 ∧ 1 ≤ quantity ∧ quantity ≤ 125) →
            ∀ s : State, ∃ t, exec i s = .next t ∧ t.encStatus = 1#3 ∧ allAbsent t.tx))

/-! ### Steps and reset -/

/-- A step runs the instruction that is presented next, and takes it from what the host presents (assumption 3). -/
def Obligations.StepRunsThePresentedInstruction : Prop :=
  ∀ (s : State) (p : Presented) (rest : List HostEvent) (i : Instr),
    s.pending = .present p :: rest → decode p = .ok i → step s = exec i { s with pending := rest }

/-- Where nothing is presented the run has ended (rule R186; assumption 3), and what stands for no row is refused by its reason: a call on integers that no
port carries as rule R87 says (with assumption 8 where another operand is out of range too), and a line or request bytes of no row by the
model's choice (assumption 6). -/
def Obligations.StepStopsOnNothingToRun : Prop :=
  (∀ s : State, s.pending = [] → step s = .fault .endOfRun)
  ∧ (∀ (s : State) (p : Presented) (rest : List HostEvent) (e : DecodeError),
      s.pending = .present p :: rest → decode p = .error e → step s = .refused (.undecodable e))

/-- Rules R175 and R25: the reset event puts every register at the value of the table, from every state, with no distinction of power-on
and warm reset; the unspecified ones hold no value (rule R176, assumption 1). After it the first operation may be any of the four. That the event
keeps the instance's parameters and the rest of what the host presents is the model's choice (assumptions 2 and 3). -/
def Obligations.ResetEventRestoresTheTable : Prop :=
  ∀ (s : State) (rest : List HostEvent), s.pending = .reset :: rest →
    ∃ t, step s = .next t ∧ t.crc = 0xFFFF#16 ∧ t.encStatus = 7#3 ∧ t.decStatus = 7#3 ∧ allAbsent t.tx ∧ t.rAddr = none
      ∧ t.rFunc = none ∧ t.exc = none ∧ t.regCount = none ∧ allAbsent t.reg ∧ t.params = s.params ∧ t.pending = rest
      ∧ (∃ u, exec .crcInit t = .next u) ∧ (∀ b, ∃ u, exec (.crcUpdate b) t = .next u)
      ∧ (∀ slaveId func startAddr quantity, ∃ u, exec (.encRead slaveId func startAddr quantity) t = .next u)
      ∧ (∀ rx : List Byte, rx.length ≤ s.params.rxCapacity → ∃ u, exec (.decResp rx) t = .next u)

/-- The state after reset (rule R25), the unspecified registers without a value (rule R176, assumption 1), with the default capacity (rule R7), which the
model carries in State (assumption 2). -/
def Obligations.ResetStateHoldsTheTable : Prop :=
  State.reset.crc = 0xFFFF#16 ∧ State.reset.encStatus = 7#3 ∧ State.reset.decStatus = 7#3 ∧ allAbsent State.reset.tx
    ∧ State.reset.rAddr = none ∧ State.reset.rFunc = none ∧ State.reset.exc = none ∧ State.reset.regCount = none
    ∧ allAbsent State.reset.reg ∧ State.reset.params.rxCapacity = 260

/-- The reset state meets the invariant. -/
def Obligations.ResetMeetsTheInvariant : Prop := State.reset.Inv

/-- Every step keeps the invariant: the status registers hold none but the codes of rules R12 and R14, and a data register holds a value exactly
under the statuses of rules R13 and R15 to R19, a request frame among them with its CRC (rule R88). An unspecified register holds no value by rule
R19 (assumption 1). -/
def Obligations.StepKeepsTheInvariant : Prop :=
  ∀ s t : State, s.Inv → step s = .next t → t.Inv

/-- A step takes exactly one thing the host presents, in order, and never changes the instance (rule R41; assumptions 2 and 3). -/
def Obligations.StepTakesOneEvent : Prop :=
  ∀ s t : State, step s = .next t → t.params = s.params ∧ ∃ e, s.pending = e :: t.pending

/-! ### The CRC unit -/

/-- Rule R70: `CRC.INIT` writes 0xFFFF to `CRC` and nothing else. -/
def Obligations.CrcInitWritesTheSeed : Prop :=
  ∀ s : State, exec .crcInit s = .next { s with crc := 0xFFFF#16 }

/-- Rules R71 and R72: `CRC.UPDATE b` exclusive-ors `b` into the low byte of `CRC` and applies the shift eight times, and writes nothing
else. -/
def Obligations.CrcUpdateFoldsTheByte : Prop :=
  let shift : Word → Word := fun c => if c.getLsbD 0 = true then (c >>> 1) ^^^ 0xA001#16 else c >>> 1
  ∀ (b : Byte) (s : State),
    exec (.crcUpdate b) s =
      .next { s with crc := shift (shift (shift (shift (shift (shift (shift (shift (s.crc ^^^ b.setWidth 16)))))))) }

/-- The table form of `crc_byte`, with the first entries (40_crc.md section 4, which marks it derived from rule R72). -/
def Obligations.CrcByteHasTheTableForm : Prop :=
  (∀ (c : Word) (b : Byte), crcByte c b = (c >>> 8) ^^^ crcByte 0#16 ((c ^^^ b.setWidth 16).extractLsb' 0 8))
  ∧ crcByte 0#16 0#8 = 0x0000#16 ∧ crcByte 0#16 1#8 = 0xC0C1#16 ∧ crcByte 0#16 2#8 = 0xC181#16
  ∧ crcByte 0#16 3#8 = 0x0140#16 ∧ crcByte 0#16 0x80#8 = 0xA001#16 ∧ crcByte 0#16 0xFE#8 = 0x8081#16
  ∧ crcByte 0#16 0xFF#8 = 0x4040#16

/-- The stream law (40_crc.md section 3, which marks it derived from rules R70, R71 and R74): `CRC.MSG` leaves the CRC of its bytes, changes nothing else, and is `CRC.INIT` followed by one `CRC.UPDATE` for each byte;
and the accumulator after any prefix is the CRC of that prefix. That `CRC.MSG` is one step is the model's choice (assumption 5). -/
def Obligations.CrcStreamComputesCrc16 : Prop :=
  (∀ (bytes : List Byte) (s : State), exec (.crcMsg bytes) s = .next { s with crc := crc16 bytes })
  ∧ (∀ (bytes : List Byte) (s : State), runAll (.crcInit :: bytes.map .crcUpdate) s = exec (.crcMsg bytes) s)
  ∧ (∀ (bytes : List Byte) (b : Byte) (s : State), s.crc = crc16 bytes →
      exec (.crcUpdate b) s = .next { s with crc := crc16 (bytes ++ [b]) })

/-- The catalogue check value (rule R73): the CRC of the nine ASCII bytes "123456789"; and the CRC of no bytes (rule R74). -/
def Obligations.CrcCheckValueIsTheCatalogues : Prop :=
  crc16 [0x31#8, 0x32#8, 0x33#8, 0x34#8, 0x35#8, 0x36#8, 0x37#8, 0x38#8, 0x39#8] = 0x4B37#16 ∧ crc16 [] = 0xFFFF#16

/-- The residue law (40_crc.md section 4, which marks it derived from rules R72 and R74): appending a sequence's own CRC, low byte first, leaves zero, and nothing else does; `crc_shift` is a bijection
that maps 0 to 0. -/
def Obligations.CrcResidueIsZeroExactlyOnItsOwnCrc : Prop :=
  (∀ s : List Byte, crc16 (s ++ [lo8 (crc16 s), hi8 (crc16 s)]) = 0#16)
  ∧ (∀ (s : List Byte) (a b : Byte), crc16 (s ++ [a, b]) = 0#16 ↔ le16 a b = crc16 s)
  ∧ Function.Bijective crcShift ∧ crcShift 0#16 = 0#16

/-- Rule R77, the corruption law: a sequence of at least five bytes that ends in its own CRC, with any single byte of it changed, decodes to
`CrcMismatch`. -/
def Obligations.SingleByteCorruptionIsDetected : Prop :=
  ∀ (body : List Byte) (i : Nat) (d : Byte),
    let f := body ++ [lo8 (crc16 body), hi8 (crc16 body)]
    5 ≤ f.length → (h : i < f.length) → d ≠ f[i] →
      decodeResponse (f.set i d) = .crcMismatch
      ∧ ∀ s : State, f.length ≤ s.params.rxCapacity →
          ∃ t, exec (.decResp (f.set i d)) s = .next t ∧ t.decStatus = 3#3 ∧ t.rAddr = none ∧ t.rFunc = none ∧ t.exc = none
            ∧ t.regCount = none ∧ allAbsent t.reg

/-- Appending a zero byte to a sequence that passes the decoder's CRC check gives one that passes it too (95_test_vectors.md, the note on
V-D36). -/
def Obligations.TrailingZeroKeepsTheCrcValid : Prop :=
  ∀ rx : List Byte, 5 ≤ rx.length → decodeResponse rx ≠ .crcMismatch → decodeResponse (rx ++ [0#8]) ≠ .crcMismatch

/-- The frame of the CRC unit's rows (rules R11, R19, R70 and R71): every register but `CRC` is unchanged. -/
def Obligations.CrcRowsChangeOnlyTheAccumulator : Prop :=
  ∀ (i : Instr) (s t : State), (i = .crcInit ∨ (∃ b, i = .crcUpdate b) ∨ ∃ bytes, i = .crcMsg bytes) →
    exec i s = .next t → sameEncoder s t ∧ sameDecoder s t ∧ sameHost s t

/-! ### The request encoder -/

/-- Rule R48: in range, `ENC.READ` completes with status `OK` and `TX` holds the eight bytes of format `REQ`; nothing else
changes. -/
def Obligations.EncReadBuildsTheRequest : Prop :=
  ∀ (slaveId func : Byte) (startAddr quantity : Word) (s : State),
    1 ≤ slaveId.toNat → slaveId.toNat ≤ 247 → 1 ≤ quantity.toNat → quantity.toNat ≤ 125 →
    let body : List Byte :=
      [slaveId, func, startAddr.extractLsb' 8 8, startAddr.extractLsb' 0 8, quantity.extractLsb' 8 8, quantity.extractLsb' 0 8]
    exec (.encRead slaveId func startAddr quantity) s =
      .next { s with
        encStatus := 0#3
        tx := #v[some slaveId, some func, some (startAddr.extractLsb' 8 8), some (startAddr.extractLsb' 0 8),
          some (quantity.extractLsb' 8 8), some (quantity.extractLsb' 0 8),
          some ((crc16 body).extractLsb' 0 8), some ((crc16 body).extractLsb' 8 8)] }

/-- Rule R57: out of range, `ENC.READ` completes with status `InvalidParameter` and no frame; nothing else changes. -/
def Obligations.EncReadRejectsOutOfRange : Prop :=
  ∀ (slaveId func : Byte) (startAddr quantity : Word) (s : State),
    (slaveId.toNat = 0 ∨ 248 ≤ slaveId.toNat ∨ quantity.toNat = 0 ∨ 126 ≤ quantity.toNat) →
    exec (.encRead slaveId func startAddr quantity) s =
      .next { s with encStatus := 1#3, tx := Vector.replicate 8 none }

/-- The properties (41_encode.md section 3, which marks them derived from rule R85) of every frame that `ENC.READ` produces; the operands are recoverable from it, so `encodeRead` is injective on its
accepted domain. -/
def Obligations.EncReadFramesAreRecoverable : Prop :=
  (∀ (slaveId func : Byte) (startAddr quantity : Word) (f : List Byte),
    encodeRead slaveId func startAddr quantity = .ok f →
      f.length = 8 ∧ 1 ≤ (byteAt f 0).toNat ∧ (byteAt f 0).toNat ≤ 247 ∧ byteAt f 4 = 0x00#8
      ∧ 1 ≤ (byteAt f 5).toNat ∧ (byteAt f 5).toNat ≤ 0x7D ∧ le16 (byteAt f 6) (byteAt f 7) = crc16 (f.take 6)
      ∧ crc16 f = 0#16 ∧ slaveId = byteAt f 0 ∧ func = byteAt f 1 ∧ startAddr = be16 (byteAt f 2) (byteAt f 3)
      ∧ quantity = be16 (byteAt f 4) (byteAt f 5))
  ∧ (∀ (a a' f f' : Byte) (st st' q q' : Word) (frame : List Byte),
      encodeRead a f st q = .ok frame → encodeRead a' f' st' q' = .ok frame → a = a' ∧ f = f' ∧ st = st' ∧ q = q')

/-- Rule R63: `ENC.RIR slave, start, qty` completes, and does what `ENC.READ slave, 4, start, qty` does. -/
def Obligations.EncRirIsEncReadWithFunctionFour : Prop :=
  ∀ (slaveId : Byte) (startAddr quantity : Word) (s : State),
    ∃ t, exec (.encRir slaveId startAddr quantity) s = .next t ∧ exec (.encRead slaveId 0x04#8 startAddr quantity) s = .next t

/-- The request frame rows are the operation that produces the frame (the model's choice, assumption 4): they complete for every field, and for a frame of
the format (rules R48 and R49) `TX` then holds exactly the bytes of that frame, its CRC included. -/
def Obligations.RequestRowsProduceTheirFrame : Prop :=
  (∀ (addr func : Byte) (startAddr quantity crc : Word) (s : State),
    ∃ t, exec (.req addr func startAddr quantity crc) s = .next t ∧ exec (.encRead addr func startAddr quantity) s = .next t)
  ∧ (∀ (addr : Byte) (startAddr quantity crc : Word) (s : State),
    ∃ t, exec (.reqRir addr startAddr quantity crc) s = .next t ∧ exec (.encRead addr 0x04#8 startAddr quantity) s = .next t)
  ∧ (∀ (i : Instr) (bytes : List Byte) (s : State), encode i = .request bytes → i.wf s.params = true →
    ∃ t, exec i s = .next t ∧ t.encStatus = 0#3 ∧ t.tx.toList = bytes.map some)

/-- The frame of the encoder's rows (rules R11, R19 and R86): `CRC` and every register of the decoder are unchanged. That the request
frame rows are among them is the model's choice (assumption 4). -/
def Obligations.EncoderRowsChangeOnlyTheEncoder : Prop :=
  ∀ (i : Instr) (s t : State) (r : EncResult), returned i = .enc r → exec i s = .next t →
    t.crc = s.crc ∧ sameDecoder s t ∧ sameHost s t

/-! ### The response decoder -/

/-- Rule R95: `DEC.RESP` completes on every length up to `RX_CAPACITY` and has no next state beyond it; so do the response frames,
which the model runs as `DEC.RESP` on their bytes (the model's choice, assumption 4). With the default capacity 260 every frame that can decode to `Ok` fits. -/
def Obligations.DecRespAcceptsUpToCapacity : Prop :=
  (∀ (rx : List Byte) (s : State),
    (rx.length ≤ s.params.rxCapacity → ∃ t, exec (.decResp rx) s = .next t)
    ∧ (s.params.rxCapacity < rx.length → exec (.decResp rx) s = .refused (.rxOverCapacity rx.length)))
  ∧ (∀ (i : Instr) (rx : List Byte) (s : State), encode i = .response rx → exec i s = exec (.decResp rx) s)
  ∧ (∀ (rx : List Byte) (addr func : Byte) (regs : List Word), decodeResponse rx = .ok addr func regs →
      rx.length = 5 + (byteAt rx 2).toNat ∧ rx.length ≤ State.reset.params.rxCapacity)

/-- Rule R98, the complete decision table: `DEC.RESP` on bytes that fit completes, with the status the table gives and with the result the table gives
when its registers are read back. -/
def Obligations.DecRespFollowsTheDecisionTable : Prop :=
  ∀ (rx : List Byte) (s : State), rx.length ≤ s.params.rxCapacity →
    let n := rx.length
    let crcOk : Prop := crc16 (rx.take (n - 2)) = le16 (byteAt rx (n - 2)) (byteAt rx (n - 1))
    let exc : Prop := (byteAt rx 1).getLsbD 7 = true
    let shapeOk : Prop := (byteAt rx 2).toNat = n - 5 ∧ (byteAt rx 2).toNat % 2 = 0
    ∃ t, exec (.decResp rx) s = .next t
      ∧ (n < 5 → t.decStatus = 2#3 ∧ t.decView = some .shortFrame)
      ∧ (5 ≤ n → ¬ crcOk → t.decStatus = 3#3 ∧ t.decView = some .crcMismatch)
      ∧ (5 ≤ n → crcOk → exc → t.decStatus = 4#3 ∧ t.decView = some (.exceptionResponse (byteAt rx 2)))
      ∧ (5 ≤ n → crcOk → ¬ exc → ¬ shapeOk → t.decStatus = 5#3 ∧ t.decView = some .malformedPayload)
      ∧ (5 ≤ n → crcOk → ¬ exc → shapeOk → t.decStatus = 0#3 ∧
          t.decView = some (.ok (byteAt rx 0) (byteAt rx 1)
            ((List.range ((byteAt rx 2).toNat / 2)).map fun i => be16 (byteAt rx (3 + 2 * i)) (byteAt rx (4 + 2 * i)))))

/-- Rule R103: where each word comes from, and what the decoder's registers hold after each status (rule R97). After `OK` they hold bytes 0 and 1, half the
byte count, and the words, each from the two bytes at `3 + 2i` and `4 + 2i`, the last of them just before the CRC; after `ExceptionResponse` bytes 0, 1 and 2; after any other failure no value. `CRC` and the encoder's registers
are unchanged, and no more than `RX_CAPACITY` bytes are accepted. -/
def Obligations.DecRespLatchesItsRegisters : Prop :=
  ∀ (rx : List Byte) (s t : State), exec (.decResp rx) s = .next t →
    rx.length ≤ s.params.rxCapacity ∧ t.crc = s.crc ∧ sameEncoder s t
    ∧ (t.decStatus = 0#3 →
      rx.length = 5 + 2 * ((byteAt rx 2).toNat / 2) ∧ t.rAddr = rx[0]? ∧ t.rFunc = rx[1]? ∧ t.exc = none
      ∧ t.regCount = some (BitVec.ofNat 7 ((byteAt rx 2).toNat / 2))
      ∧ ∀ i : Fin 127, t.reg[i] =
          if i.val < (byteAt rx 2).toNat / 2 then some (be16 (byteAt rx (3 + 2 * i.val)) (byteAt rx (4 + 2 * i.val))) else none)
    ∧ (t.decStatus = 4#3 →
      t.rAddr = rx[0]? ∧ t.rFunc = rx[1]? ∧ t.exc = rx[2]? ∧ t.regCount = none ∧ allAbsent t.reg)
    ∧ (t.decStatus = 2#3 ∨ t.decStatus = 3#3 ∨ t.decStatus = 5#3 →
      t.rAddr = none ∧ t.rFunc = none ∧ t.exc = none ∧ t.regCount = none ∧ allAbsent t.reg)
    ∧ (t.decStatus = 0#3 ∨ t.decStatus = 2#3 ∨ t.decStatus = 3#3 ∨ t.decStatus = 4#3 ∨ t.decStatus = 5#3)

/-- 42_decode.md section 4, rule R104 (c), which the spec marks derived from rule R96: a response built from a header and 0 to 127 words by the layout of rule R50 decodes to exactly that header and those words,
and nothing outside the decoder changes. -/
def Obligations.DataResponseRoundTrip : Prop :=
  ∀ (addr func : Byte) (regs : List Word) (s : State),
    func.getLsbD 7 = false → regs.length ≤ 127 → 5 + 2 * regs.length ≤ s.params.rxCapacity →
    let body := [addr, func, BitVec.ofNat 8 (2 * regs.length)] ++ wordsToBytes regs
    exec (.decResp (body ++ [lo8 (crc16 body), hi8 (crc16 body)])) s =
      .next { s with
        decStatus := 0#3
        rAddr := some addr
        rFunc := some func
        exc := none
        regCount := some (BitVec.ofNat 7 regs.length)
        reg := Vector.ofFn fun i : Fin 127 => regs[i.val]? }

/-- Rule R102: every CRC-valid frame of 5 or more bytes with bit 7 of byte 1 set is `ExceptionResponse` of byte 2, whatever else it holds, and never a
register array. -/
def Obligations.ExceptionResponsesOfEveryLength : Prop :=
  ∀ (addr func code : Byte) (extra : List Byte) (s : State),
    func.getLsbD 7 = true → 5 + extra.length ≤ s.params.rxCapacity →
    let body := [addr, func, code] ++ extra
    exec (.decResp (body ++ [lo8 (crc16 body), hi8 (crc16 body)])) s =
      .next { s with
        decStatus := 4#3
        rAddr := some addr
        rFunc := some func
        exc := some code
        regCount := none
        reg := Vector.replicate 127 none }

/-- Rule R99: a 5-byte frame with bit 7 of byte 1 clear, byte count 0 and a valid CRC decodes to an empty register array. -/
def Obligations.EmptyPayloadIsOk : Prop :=
  ∀ (addr func : Byte) (s : State), func.getLsbD 7 = false → 5 ≤ s.params.rxCapacity →
    let body := [addr, func, 0#8]
    exec (.decResp (body ++ [lo8 (crc16 body), hi8 (crc16 body)])) s =
      .next { s with
        decStatus := 0#3
        rAddr := some addr
        rFunc := some func
        exc := none
        regCount := some 0#7
        reg := Vector.replicate 127 none }

/-- Rule R100: a byte count that is the payload's length but odd is `MalformedPayload`, with no data. -/
def Obligations.OddByteCountIsMalformed : Prop :=
  ∀ (addr func bc : Byte) (payload : List Byte) (s : State),
    func.getLsbD 7 = false → payload.length = bc.toNat → bc.toNat % 2 = 1 → 5 + payload.length ≤ s.params.rxCapacity →
    let body := [addr, func, bc] ++ payload
    exec (.decResp (body ++ [lo8 (crc16 body), hi8 (crc16 body)])) s =
      .next { s with
        decStatus := 5#3
        rAddr := none
        rFunc := none
        exc := none
        regCount := none
        reg := Vector.replicate 127 none }

/-- The data response row (rule R50) is `DEC.RESP` on the frame (assumption 4): it completes for every field that fits the instance, with
the status of the first check that fails, and with the words of its payload where none does. -/
def Obligations.DataResponseRowIsDecoded : Prop :=
  ∀ (addr : Byte) (func : BitVec 7) (bc : Byte) (payload : List Byte) (crc : Word) (s : State),
    5 + payload.length ≤ s.params.rxCapacity →
    let c := crc16 ([addr, BitVec.ofBool false ++ func, bc] ++ payload)
    ∃ t, exec (.rspData addr func bc payload crc) s = .next t
      ∧ (crc ≠ c → t.decStatus = 3#3 ∧ t.regCount = none)
      ∧ (crc = c → payload.length ≠ bc.toNat ∨ bc.toNat % 2 = 1 → t.decStatus = 5#3 ∧ t.regCount = none)
      ∧ (crc = c → payload.length = bc.toNat → bc.toNat % 2 = 0 →
          t.decStatus = 0#3 ∧ t.rAddr = some addr ∧ t.rFunc = some (BitVec.ofBool false ++ func)
          ∧ t.regCount = some (BitVec.ofNat 7 (payload.length / 2))
          ∧ wordsToBytes (presentEntries t.reg) = payload)

/-- The exception response row (rule R51) is `DEC.RESP` on the frame (assumption 4): it completes on every instance that holds five bytes, with
`ExceptionResponse` where the CRC is right and `CrcMismatch` where it is not. -/
def Obligations.ExceptionRowIsDecoded : Prop :=
  ∀ (addr : Byte) (func : BitVec 7) (exc : Byte) (crc : Word) (s : State), 5 ≤ s.params.rxCapacity →
    let c := crc16 [addr, BitVec.ofBool true ++ func, exc]
    ∃ t, exec (.rspExc addr func exc crc) s = .next t
      ∧ (crc = c → t.decStatus = 4#3 ∧ t.rAddr = some addr ∧ t.rFunc = some (BitVec.ofBool true ++ func) ∧ t.exc = some exc
          ∧ t.regCount = none ∧ allAbsent t.reg)
      ∧ (crc ≠ c → t.decStatus = 3#3 ∧ t.rAddr = none ∧ t.rFunc = none ∧ t.exc = none ∧ t.regCount = none ∧ allAbsent t.reg)

/-- 42_decode.md section 4, rule R104 (e), which the spec marks derived from rule R96: a request frame that `ENC.READ` produced never decodes to `Ok`: it is `MalformedPayload`, or
`ExceptionResponse` of the high byte of the start address where bit 7 of `func` is set. -/
def Obligations.RequestsNeverDecodeToOk : Prop :=
  ∀ (slaveId func : Byte) (startAddr quantity : Word) (f : List Byte),
    encodeRead slaveId func startAddr quantity = .ok f →
      decodeResponse f = if func.getLsbD 7 then .exceptionResponse (hi8 startAddr) else .malformedPayload

/-- What decodes to `Ok` has the length its words give it, at most 127 of them in 259 bytes (rule R97 (g); 90_conflicts.md entry C9). -/
def Obligations.DecodedFramesHaveTheirLength : Prop :=
  ∀ (rx : List Byte) (addr func : Byte) (regs : List Word), decodeResponse rx = .ok addr func regs →
    rx.length = 5 + 2 * regs.length ∧ regs.length ≤ 127 ∧ func.getLsbD 7 = false

/-- The frame of the decoder's rows (rules R11, R19 and R97): `CRC`, `ENC_STATUS` and `TX` are unchanged. That the response frame rows are among
them is the model's choice (assumption 4). -/
def Obligations.DecoderRowsChangeOnlyTheDecoder : Prop :=
  ∀ (i : Instr) (s t : State) (r : DecResult), returned i = .dec r → exec i s = .next t →
    t.crc = s.crc ∧ sameEncoder s t ∧ sameHost s t

/-! ### The whole machine -/

/-- Rules R10 and R19: the transaction view and the register view agree. Reading the unit's registers back gives what the operation returned, and the other unit's view is unchanged. What a frame row returns is the model's choice (assumption 4). -/
def Obligations.TheTwoViewsAgree : Prop :=
  ∀ (i : Instr) (s t : State), exec i s = .next t →
    (∀ r, returned i = .enc r → t.encView = some r ∧ t.decView = s.decView)
    ∧ (∀ r, returned i = .dec r → t.decView = some r ∧ t.encView = s.encView)
    ∧ (returned i = .nothing → t.encView = s.encView ∧ t.decView = s.decView)

/-- Rule R24: no operation's result depends on any state other than its operands and, for `CRC.UPDATE` alone, the register `CRC`. From any two
states, whatever was left in them by earlier failures, the same instruction leaves the same registers of its unit. That registers which the spec leaves
unspecified agree too is the model's reading of them as absent (assumption 1). -/
def Obligations.ResultsDependOnlyOnOperands : Prop :=
  ∀ (i : Instr) (s s' t t' : State), exec i s = .next t → exec i s' = .next t' →
    (∀ r, returned i = .enc r → sameEncoder t t') ∧ (∀ r, returned i = .dec r → sameDecoder t t')
    ∧ (returned i = .nothing → s.crc = s'.crc ∨ (∀ b, i ≠ .crcUpdate b) → t.crc = t'.crc)

/-- 20_memory.md section 3 (rule R39, which the spec marks derived from rule R24): every row but `CRC.UPDATE` is idempotent, and `CRC.UPDATE` is
not. For the frame rows and `CRC.MSG`, and for registers without a value, this rests on the model's reading (assumptions 1, 4 and 5). -/
def Obligations.OperationsAreIdempotent : Prop :=
  (∀ (i : Instr) (s t : State), (∀ b, i ≠ .crcUpdate b) → exec i s = .next t → exec i t = .next t)
  ∧ (∃ (b : Byte) (s t : State), exec (.crcUpdate b) s = .next t ∧ exec (.crcUpdate b) t ≠ .next t)

/-- Rules R61 and R150: after an operation of a unit its status is one of the codes the rule lists, code 6 and code 7 never among
them. What unit a frame row is an operation of is the model's choice (assumption 4). -/
def Obligations.OperationsNeverLeaveAReservedStatus : Prop :=
  ∀ (i : Instr) (s t : State), exec i s = .next t →
    (∀ r, returned i = .enc r → t.encStatus = 0#3 ∨ t.encStatus = 1#3)
    ∧ (∀ r, returned i = .dec r →
        t.decStatus = 0#3 ∨ t.decStatus = 2#3 ∨ t.decStatus = 3#3 ∨ t.decStatus = 4#3 ∨ t.decStatus = 5#3)

/-! ### Around the block: text and environment -/

/-- Lines of the spec's programs (30_encoding.md rules R62 and R63; 95_test_vectors.md section 7) stand for what they present. How a
pseudo-operation is presented is the model's choice (assumption 6). -/
def Obligations.TextLinesOfTheSpec : Prop :=
  readText ['C', 'R', 'C', '.', 'I', 'N', 'I', 'T', ' ', ' ', ';', ' ', 'o', 'p'] = .ok (some (encode .crcInit))
  ∧ readText ['C', 'R', 'C', '.', 'U', 'P', 'D', 'A', 'T', 'E', ' ', '0', 'x', '8', '1'] = .ok (some (encode (.crcUpdate 0x81#8)))
  ∧ readText ['E', 'N', 'C', '.', 'R', 'E', 'A', 'D', ' ', '1', ',', ' ', '4', ',', ' ', '3', '3', '0', '4', '9', ',', ' ', '1']
      = .ok (some (encode (.encRead 1#8 4#8 33049#16 1#16)))
  ∧ readText ['D', 'E', 'C', '.', 'R', 'E', 'S', 'P'] = .ok (some (encode (.decResp [])))
  ∧ readText ['C', 'R', 'C', '.', 'M', 'S', 'G', ' ', '0', '1', ' ', 'F', 'F'] = .ok (some (encode (.crcMsg [0x01#8, 0xFF#8])))
  ∧ readText ['E', 'N', 'C', '.', 'R', 'I', 'R', ' ', '1', ',', ' ', '3', '3', '1', '4', '9', ',', ' ', '2']
      = .ok (some (encode (.encRir 1#8 33149#16 2#16)))

/-- Rules R128 and R129 (environment): the composition of two words, unsigned and as two's complement. -/
def Obligations.TwoWordsComposeHighWordFirst : Prop :=
  ∀ high low : Word,
    (combine32 high low).toNat = high.toNat * 65536 + low.toNat
    ∧ (combine32 high low).toInt =
        if high.toNat * 65536 + low.toNat < 2 ^ 31 then (high.toNat * 65536 + low.toNat : Int)
        else (high.toNat * 65536 + low.toNat : Int) - 2 ^ 32

/-- Rules R130, R131 and R134 (environment): 18 reads in groups of 1, 5, 2, 2, 4 and 4, no address twice, every request in range
for every legal slave address (the source fixes none, 91_not_in_source.md N16). Which entry belongs to which group is the spec's own inference (rule R131,
91_not_in_source.md N13). -/
def Obligations.TheRegisterMapIsTheCycle : Prop :=
  (allGroups.map fun g => (groupReads g).length) = [1, 5, 2, 2, 4, 4]
  ∧ allGroups.flatMap groupReads = allQuantities
  ∧ (allQuantities.map fun q => (registerMap q).address).Nodup
  ∧ ∀ q : Quantity, q ∈ allQuantities ∧ ∀ (slaveId : Byte) (s : State), 1 ≤ slaveId.toNat → slaveId.toNat ≤ 247 →
      ∃ t, exec (requestFor slaveId q).instr s = .next t ∧ t.encStatus = 0#3

/-- Rule R121 (environment): a frame delivered in any chunks, with gaps below the quiet window and inside the deadline, is handed over whole
when the quiet window has elapsed, without the length-driven check. -/
def Obligations.ChunkBoundariesDoNotMatter : Prop :=
  ∀ (window deadline quantity generation : Nat) (deliveries : List (Nat × List Byte)) (st : AssemblerState),
    let cfg : AssemblerConfig := { quietWindow := window, deadline := deadline, lengthDriven := false }
    st.phase = .awaiting generation quantity [] none 0 → deliveries ≠ [] → (∀ d ∈ deliveries, d.1 < window ∧ d.2 ≠ []) →
    (deliveries.map Prod.fst).sum + window < deadline →
    let events := deliveries.flatMap (fun d => List.replicate d.1 .tick ++ [.chunk generation d.2]) ++ List.replicate window .tick
    (assemblerRun cfg st events).1.phase = .idle
    ∧ ∃ before : Nat, (assemblerRun cfg st events).2 =
        List.replicate before .nothing ++ [.complete (deliveries.map Prod.snd).flatten]

/-- Rules R123 and R124 (environment): bytes that arrive while the assembler is Idle, or of another generation, change nothing; a response of
which nothing arrives ends in exactly one `TimedOut` when the deadline is reached; a caller's timeout releases the assembler to Idle; and
an exchange whose link stays silent ends in `Timeout` with no `DEC.RESP` issued, so that the decoder's registers are as before. That a caller's timeout has the
same outcome as the deadline, where rule R124 only releases the assembler to Idle, and that a link whose events are used up is silent, is the model's
choice (assumption 13); so is the last clause's deadline of zero, which fires at the first time unit (assumption 9). -/
def Obligations.StaleAndMissingBytesChangeNothing : Prop :=
  (∀ (cfg : AssemblerConfig) (st : AssemblerState) (generation quantity g : Nat) (buffer bytes : List Byte) (quiet : Option Nat)
      (elapsed : Nat), st.phase = .awaiting generation quantity buffer quiet elapsed → g ≠ generation →
      assemblerStep cfg st (.chunk g bytes) = (st, .discarded))
  ∧ (∀ (cfg : AssemblerConfig) (st : AssemblerState) (g : Nat) (bytes : List Byte), st.phase = .idle →
      assemblerStep cfg st (.chunk g bytes) = (st, .discarded))
  ∧ (∀ (cfg : AssemblerConfig) (st : AssemblerState) (generation quantity : Nat), 0 < cfg.deadline →
      st.phase = .awaiting generation quantity [] none 0 →
      (assemblerRun cfg st (List.replicate cfg.deadline .tick)).1.phase = .idle
      ∧ (assemblerRun cfg st (List.replicate cfg.deadline .tick)).2 = List.replicate (cfg.deadline - 1) .nothing ++ [.timedOut])
  ∧ (∀ (cfg : AssemblerConfig) (st : AssemblerState) (generation quantity elapsed : Nat) (buffer : List Byte) (quiet : Option Nat),
      st.phase = .awaiting generation quantity buffer quiet elapsed →
      assemblerStep cfg st .callerTimeout = ({ st with phase := .idle }, .timedOut))
  ∧ (∀ (cfg : EngineConfig) (request : ReadRequest) (e : Engine), e.connection = .live → e.assembler.phase = .idle →
      slaveInRange request.slaveId = true → quantityInRange request.quantity = true →
      ∃ e', exchange cfg (fun _ _ _ => some []) request e = some (e', .error .timeout)
        ∧ sameDecoder e.block e'.block ∧ e'.assembler.phase = .idle)

/-- Rule R125 (environment): with the length-driven check, a known length that the buffer has not reached is awaited, whatever the quiet window says: no
time unit completes the frame. The window decides only while the length is not yet known. That a chunk completes the frame as soon as the buffer is at
least as long as expected, a longer buffer among them, on which the rule is silent, is the model's choice (assumption 9). -/
def Obligations.KnownLengthIsAwaited : Prop :=
  ∀ (cfg : AssemblerConfig) (st : AssemblerState) (generation quantity elapsed : Nat) (buffer : List Byte) (quiet : Option Nat),
    cfg.lengthDriven = true → st.phase = .awaiting generation quantity buffer quiet elapsed →
    (∀ n, expectedLength quantity buffer = some n → ∀ bytes, (assemblerStep cfg st .tick).2 ≠ .complete bytes)
    ∧ (∀ w, expectedLength quantity buffer = none → quiet = some w → cfg.quietWindow ≤ w + 1 → elapsed + 1 < cfg.deadline →
        (assemblerStep cfg st .tick).2 = .complete buffer)
    ∧ (∀ n chunk, expectedLength quantity (buffer ++ chunk) = some n → chunk ≠ [] → n ≤ (buffer ++ chunk).length →
        (assemblerStep cfg st (.chunk generation chunk)).2 = .complete (buffer ++ chunk))

/-- Rule R136 (environment), the data flow of rule R115: on a live session with the assembler Idle, a read whose device answers at once with a data
response of as many words as the quantity spans answers those words, from whatever address and under whatever function code with bit 7 clear (the model
compares neither with the request: its choice, assumption 14), and the value they decode to; the block holds them, and the exchange has completed, which it does when its wait ends (assumption 13). -/
def Obligations.ReadsRunTheWholeFlow : Prop :=
  ∀ (cfg : EngineConfig) (q : Quantity) (e : Engine) (addr func : Byte) (words : List Word),
    e.connection = .live → e.assembler.phase = .idle → slaveInRange cfg.slaveId = true → cfg.assembler.lengthDriven = true →
    func.getLsbD 7 = false → words.length = (registerMap q).span → 5 + 2 * words.length ≤ e.block.params.rxCapacity →
    let body := [addr, func, BitVec.ofNat 8 (2 * words.length)] ++ wordsToBytes words
    let response := body ++ [lo8 (crc16 body), hi8 (crc16 body)]
    ∃ e', readQuantity cfg (fun generation _ _ => some [.chunk generation response]) q e
          = some (e', .ok { quantity := q, words := words, value := decodeQuantity cfg.zeroWhenEmpty q words })
      ∧ e'.block.decView = some (.ok addr func words) ∧ e'.assembler.phase = .idle ∧ e'.connection = .live
      ∧ e'.completedAt = some e'.now

/-- Rule R135 (environment): no exchange writes before the minimum delay has passed since the previous one completed: what the link would do at an earlier
time makes no difference. And whatever an exchange answers, it leaves the time of the previous completion or has completed itself, now: when an exchange completes, and that the
engine waits for the delay before it writes, is the model's choice (assumption 13). -/
def Obligations.ExchangesKeepTheDelay : Prop :=
  ∀ (cfg : EngineConfig) (link link' : Link) (request : ReadRequest) (e : Engine),
    (∀ generation now frame, (∀ c, e.completedAt = some c → c + cfg.commandDelay ≤ now) →
      link generation now frame = link' generation now frame) →
    exchange cfg link request e = exchange cfg link' request e
    ∧ ∀ e' r, exchange cfg link request e = some (e', r) → e.now ≤ e'.now ∧
        (e'.completedAt = e.completedAt ∨ e'.completedAt = some e'.now)

/-- Rule R140 (environment): a session is released on every exit path, on a failure to open, on an error and on success; an exchange on a connection that
is not live fails fast with `NotConnected` and changes nothing. The last clause is the model's choice: a failed write or a Transport error under an exchange
surfaces as `ConnectionError` and ends the session (assumption 13), the error having ended the wait for the response (assumption 9). -/
def Obligations.SessionsAreReleased : Prop :=
  (∀ (α : Type) (ready : Bool) (run : Engine → Answer α) (e e' : Engine) (r : Except SystemError α),
    withSession ready run e = some (e', r) → e'.connection ≠ .live)
  ∧ (∀ (run : Engine → Answer (List Word)) (e : Engine), e.connection = .notOpen →
      ∃ e', withSession false run e = some (e', .error .connectionError))
  ∧ (∀ (cfg : EngineConfig) (link : Link) (request : ReadRequest) (e : Engine), e.connection ≠ .live →
      exchange cfg link request e = some (e, .error .notConnected))
  ∧ (∀ (cfg : EngineConfig) (link : Link) (request : ReadRequest) (e : Engine), e.connection = .live → e.assembler.phase = .idle →
      slaveInRange request.slaveId = true → quantityInRange request.quantity = true →
      (∀ generation now frame, link generation now frame = none ∨ link generation now frame = some [.transportError]) →
      ∃ e', exchange cfg link request e = some (e', .error .connectionError) ∧ e'.connection = .ended)
end

