-- ==== Sys2Proof/Laws/Crc.lean ====
section
/-! SUPPORT. The CRC over sequences: folding a concatenation, and what `CRC.MSG` and a run of `CRC.UPDATE` do to a state. -/

namespace Sys2Proof.Machine

@[simp] theorem crcFrom_nil (c : Word) : crcFrom c [] = c := rfl

@[simp] theorem crcFrom_cons (c : Word) (b : Byte) (s : List Byte) : crcFrom c (b :: s) = crcFrom (crcByte c b) s := rfl

theorem crcFrom_append (c : Word) (s t : List Byte) : crcFrom c (s ++ t) = crcFrom (crcFrom c s) t := by
  simp [crcFrom]

theorem crc16_append (s t : List Byte) : crc16 (s ++ t) = crcFrom (crc16 s) t := crcFrom_append _ s t

/-- Folding bytes into a state changes the accumulator alone. -/
theorem foldl_foldByte (s : State) (bytes : List Byte) :
    bytes.foldl State.foldByte s = s.setCrc (crcFrom s.crc bytes) := by
  induction bytes generalizing s with
  | nil => rfl
  | cons b bs ih => rw [List.foldl_cons, ih]; rfl

/-- Shifting in steps is shifting at once. -/
theorem crcShifts_add (m n : Nat) (c : Word) : crcShifts (m + n) c = crcShifts n (crcShifts m c) := by
  induction m generalizing c with
  | zero => simp [crcShifts]
  | succ m ih => rw [Nat.succ_add]; exact ih (crcShift c)

/-- `crc_shift` is linear over exclusive or. -/
theorem crcShift_xor (x y : Word) : crcShift (x ^^^ y) = crcShift x ^^^ crcShift y := by
  unfold crcShift
  rw [BitVec.getLsbD_xor, BitVec.ushiftRight_xor_distrib]
  cases x.getLsbD 0 <;> cases y.getLsbD 0 <;> simp
  · ac_rfl
  · ac_rfl
  · have h : x >>> 1 ^^^ Config.poly ^^^ (y >>> 1 ^^^ Config.poly) = x >>> 1 ^^^ y >>> 1 ^^^ (Config.poly ^^^ Config.poly) := by
      ac_rfl
    rw [h]
    simp

theorem crcShifts_xor (n : Nat) (x y : Word) : crcShifts n (x ^^^ y) = crcShifts n x ^^^ crcShifts n y := by
  induction n generalizing x y with
  | zero => rfl
  | succ n ih => simp [crcShifts, crcShift_xor, ih]

/-- A byte in the high half only moves down in eight shifts. -/
theorem crcShifts_high (b : Byte) : crcShifts 8 (b.setWidth 16 <<< 8) = b.setWidth 16 := by
  revert b; decide +kernel

end Sys2Proof.Machine
end

