-- ==== Sys2Proof/Laws/Operands.lean ====
section
/-! SUPPORT. Bytes and words: laying a field out and reading it back (30_encoding.md rules R53 and R54), and reading bytes of a sequence. -/

namespace Sys2Proof.Machine

@[simp] theorem be16_hi8_lo8 (w : Word) : be16 (hi8 w) (lo8 w) = w := by
  ext i hi
  simp only [be16, hi8, lo8, BitVec.getElem_or, BitVec.getElem_shiftLeft, BitVec.getElem_setWidth, BitVec.getLsbD_extractLsb']
  by_cases h : i < 8
  · simp [h, BitVec.getLsbD_eq_getElem hi]
  · have h1 : i - 8 < 8 := by omega
    have h2 : 8 + (i - 8) = i := by omega
    simp [h, h1, h2, BitVec.getLsbD_eq_getElem hi]

@[simp] theorem le16_lo8_hi8 (w : Word) : le16 (lo8 w) (hi8 w) = w := be16_hi8_lo8 w

@[simp] theorem hi8_be16 (a b : Byte) : hi8 (be16 a b) = a := by
  ext i hi
  have h : 8 + i < 16 := by omega
  simp [be16, hi8, h, BitVec.getLsbD_eq_getElem hi]

@[simp] theorem lo8_be16 (a b : Byte) : lo8 (be16 a b) = b := by
  ext i hi
  have h : i < 16 := by omega
  simp [be16, lo8, h, hi]

theorem le16_eq_be16 (a b : Byte) : le16 a b = be16 b a := rfl

@[simp] theorem hi8_le16 (a b : Byte) : hi8 (le16 a b) = b := hi8_be16 b a

@[simp] theorem lo8_le16 (a b : Byte) : lo8 (le16 a b) = a := lo8_be16 b a

/-- A byte inside a sequence is what `byteAt` reads. -/
theorem byteAt_eq (s : List Byte) (i : Nat) (h : i < s.length) : byteAt s i = s[i] := by
  simp [byteAt, List.getD, h]

theorem getElem?_eq_byteAt (s : List Byte) (i : Nat) (h : i < s.length) : s[i]? = some (byteAt s i) := by
  rw [byteAt_eq s i h, List.getElem?_eq_getElem h]

theorem byteAt_append_left (s t : List Byte) (i : Nat) (h : i < s.length) : byteAt (s ++ t) i = byteAt s i := by
  simp [byteAt, List.getD, List.getElem?_append_left h]

theorem byteAt_append_right (s t : List Byte) (i : Nat) : byteAt (s ++ t) (s.length + i) = byteAt t i := by
  simp [byteAt, List.getD, List.getElem?_append_right]

@[simp] theorem memRead_zero_append (s t : List Byte) : memRead (s ++ t) 0 s.length = s := by
  simp [memRead]

@[simp] theorem length_memRead_zero (s : List Byte) (n : Nat) : (memRead s 0 n).length = min n s.length := by
  simp [memRead]

@[simp] theorem length_crcTail (c : Word) : (crcTail c).length = 2 := rfl

@[simp] theorem length_requestBody (addr func : Byte) (startAddr quantity : Word) :
    (requestBody addr func startAddr quantity).length = 6 := rfl

@[simp] theorem length_dataBody (addr : Byte) (func : BitVec 7) (bc : Byte) (payload : List Byte) :
    (dataBody addr func bc payload).length = 3 + payload.length := by
  simp [dataBody]; omega

@[simp] theorem length_exceptionBody (addr : Byte) (func : BitVec 7) (exc : Byte) :
    (exceptionBody addr func exc).length = 3 := rfl

@[simp] theorem length_wordsToBytes (ws : List Word) : (wordsToBytes ws).length = 2 * ws.length := by
  induction ws with
  | nil => rfl
  | cons w ws ih => simp [wordsToBytes, ih]; omega

/-- Bit 7 of byte 1 is what a response's format says, and the bits below it are the function code (rules R50 and R51). -/
@[simp] theorem responseFunc_bit7 (e : Bool) (f : BitVec 7) : (responseFunc e f).getLsbD 7 = e := by
  revert e f; decide +kernel

@[simp] theorem responseFunc_low (e : Bool) (f : BitVec 7) : (responseFunc e f).extractLsb' 0 7 = f := by
  revert e f; decide +kernel

/-- Masking with the exception bit tests bit 7. -/
theorem and_excBit (b : Byte) : b &&& Config.excBit = 0#8 ↔ b.getLsbD 7 = false := by
  revert b; decide +kernel

end Sys2Proof.Machine
end

