-- ==== Sys2Proof/Laws/Results.lean ====
section
/-! SUPPORT. What `encodeRead` and `decodeResponse` can answer, one lemma each, and the two shared operations that the meanings are made of. -/

namespace Sys2Proof.Machine

/-- The range check of a slave address, as inequalities (41_encode.md rule R85). -/
theorem slaveInRange_iff (a : Byte) : slaveInRange a = true ↔ 1 ≤ a.toNat ∧ a.toNat ≤ 247 := by
  unfold slaveInRange
  rw [Bool.and_eq_true, decide_eq_true_iff, decide_eq_true_iff]
  rfl

/-- The range check of a quantity, as inequalities (41_encode.md rule R85). -/
theorem quantityInRange_iff (q : Word) : quantityInRange q = true ↔ 1 ≤ q.toNat ∧ q.toNat ≤ 125 := by
  unfold quantityInRange
  rw [Bool.and_eq_true, decide_eq_true_iff, decide_eq_true_iff]
  rfl

/-- `encodeRead` in its accepted domain (41_encode.md rule R85). -/
theorem encodeRead_ok (addr func : Byte) (startAddr quantity : Word) (ha : slaveInRange addr = true)
    (hq : quantityInRange quantity = true) :
    encodeRead addr func startAddr quantity =
      .ok (requestBody addr func startAddr quantity ++ crcTail (crc16 (requestBody addr func startAddr quantity))) := by
  simp [encodeRead, ha, hq]

/-- Everything `encodeRead` can answer (rule R85). -/
theorem encodeRead_cases (addr func : Byte) (startAddr quantity : Word) :
    (slaveInRange addr = true ∧ quantityInRange quantity = true ∧
      encodeRead addr func startAddr quantity =
        .ok (requestBody addr func startAddr quantity ++ crcTail (crc16 (requestBody addr func startAddr quantity))))
    ∨ ((slaveInRange addr = false ∨ quantityInRange quantity = false) ∧
      encodeRead addr func startAddr quantity = .invalidParameter) := by
  unfold encodeRead
  cases slaveInRange addr <;> cases quantityInRange quantity <;> simp

/-- Everything `decodeResponse` can answer, with what its checks have established (42_decode.md rule R96). -/
theorem decodeResponse_cases (rx : List Byte) :
    (rx.length < 5 ∧ decodeResponse rx = .shortFrame)
    ∨ (5 ≤ rx.length ∧ crcMatches rx = false ∧ decodeResponse rx = .crcMismatch)
    ∨ (5 ≤ rx.length ∧ crcMatches rx = true ∧ exceptionBitSet rx = true ∧
        decodeResponse rx = .exceptionResponse (byteAt rx 2))
    ∨ (5 ≤ rx.length ∧ crcMatches rx = true ∧ exceptionBitSet rx = false ∧ payloadShapeOk rx = false ∧
        decodeResponse rx = .malformedPayload)
    ∨ (5 ≤ rx.length ∧ crcMatches rx = true ∧ exceptionBitSet rx = false ∧ payloadShapeOk rx = true ∧
        decodeResponse rx =
          .ok (byteAt rx 0) (byteAt rx 1) ((List.range ((byteAt rx 2).toNat / 2)).map (registerWord rx))) := by
  unfold decodeResponse
  simp only [Config.minRespLen]
  by_cases h : rx.length < 5
  · exact .inl ⟨h, by simp [h]⟩
  · have h5 : 5 ≤ rx.length := by omega
    refine .inr ?_
    cases hc : crcMatches rx <;> cases he : exceptionBitSet rx <;> cases hp : payloadShapeOk rx <;> simp [h, h5]

/-- The exception bit of a response is bit 7 of byte 1 (rule R52). -/
theorem exceptionBitSet_eq (rx : List Byte) : exceptionBitSet rx = (byteAt rx 1).getLsbD 7 := by
  have h : ∀ b : Byte, ((b &&& Config.excBit) != 0#8) = b.getLsbD 7 := by decide +kernel
  exact h (byteAt rx 1)

/-- The payload check as arithmetic (42_decode.md rule R98, `shape_ok`). -/
theorem payloadShapeOk_eq (rx : List Byte) :
    payloadShapeOk rx = decide (rx.length - 5 = (byteAt rx 2).toNat ∧ (byteAt rx 2).toNat % 2 = 0) := by
  have h : ∀ b : Byte, (b.getLsbD 0 == false) = decide (b.toNat % 2 = 0) := by decide +kernel
  rw [payloadShapeOk, h, Bool.decide_and]
  rfl

/-- The two bytes after a sequence. -/
theorem byteAt_tail (s : List Byte) (a b : Byte) :
    byteAt (s ++ [a, b]) s.length = a ∧ byteAt (s ++ [a, b]) (s.length + 1) = b :=
  ⟨by simp [byteAt], by simp [byteAt]⟩

/-- The CRC check of a sequence, by its last two bytes. -/
theorem crcMatches_append (s : List Byte) (a b : Byte) :
    crcMatches (s ++ [a, b]) = decide (crc16 s = le16 a b) := by
  have h := byteAt_tail s a b
  have h2 : (s ++ [a, b]).length - 2 = s.length := by simp
  have h1 : (s ++ [a, b]).length - 1 = s.length + 1 := by simp
  rw [crcMatches, h1, h2, h.1, h.2, memRead_zero_append]
  rfl

/-- `decodeResponse` on a sequence cut into its fields: three header bytes, what follows them, and a CRC (42_decode.md rule R96). -/
theorem decodeResponse_fields (addr func third : Byte) (payload : List Byte) (crc : Word) :
    decodeResponse ([addr, func, third] ++ payload ++ crcTail crc) =
      if crc ≠ crc16 ([addr, func, third] ++ payload) then .crcMismatch
      else if func.getLsbD 7 then .exceptionResponse third
      else if ¬ (payload.length = third.toNat ∧ third.toNat % 2 = 0) then .malformedPayload
      else .ok addr func ((List.range (third.toNat / 2)).map
        (registerWord ([addr, func, third] ++ payload ++ crcTail crc))) := by
  generalize hrx : [addr, func, third] ++ payload ++ crcTail crc = rx
  have hc : crcMatches rx = decide (crc = crc16 ([addr, func, third] ++ payload)) := by
    rw [← hrx]; unfold crcTail; rw [crcMatches_append, le16_lo8_hi8]; simp [eq_comm]
  have hl : rx.length = 5 + payload.length := by rw [← hrx]; simp; omega
  have h0 : byteAt rx 0 = addr := by rw [← hrx]; rfl
  have h1 : byteAt rx 1 = func := by rw [← hrx]; rfl
  have h2 : byteAt rx 2 = third := by rw [← hrx]; rfl
  unfold decodeResponse
  rw [if_neg (by simp [Config.minRespLen, hl]), hc, exceptionBitSet_eq, payloadShapeOk_eq, h0, h1, h2, hl,
    Nat.add_sub_cancel_left]
  generalize func.getLsbD 7 = b7
  generalize crc16 ([addr, func, third] ++ payload) = c
  by_cases g1 : crc = c <;> by_cases g2 : payload.length = third.toNat ∧ third.toNat % 2 = 0 <;> cases b7 <;>
    simp [g1, g2]

/-- A number of register words fits `REG_COUNT` and the file `REG` (10_state.md rules R17 and R18). -/
theorem byte_half_le (b : Byte) : b.toNat / 2 ≤ 127 := by omega

/-- `DEC.RESP` on bytes that fit the instance (42_decode.md rules R95 and R97). -/
theorem decodeInto_next (s : State) (rx : List Byte) (h : rx.length ≤ s.params.rxCapacity) :
    s.decodeInto rx = .next (s.latchDec rx (decodeResponse rx)) := by
  simp [State.decodeInto, h]

/-- Where `DEC.RESP` gives a next state, the bytes fit and the result is latched. -/
theorem decodeInto_eq_next {s t : State} {rx : List Byte} (h : s.decodeInto rx = .next t) :
    rx.length ≤ s.params.rxCapacity ∧ t = s.latchDec rx (decodeResponse rx) := by
  unfold State.decodeInto at h
  split at h
  · exact ⟨‹_›, by simpa using h.symm⟩
  · cases h

/-- An instruction that returns a result of the encoder latches it, whatever the state (41_encode.md rule R86). -/
theorem exec_of_returned_enc {i : Instr} {r : EncResult} (hr : returned i = .enc r) (s : State) :
    exec i s = .next (s.latchEnc r) := by
  cases i <;> simp [returned] at hr <;> (subst hr; rfl)

/-- An instruction that returns a result of the decoder is `DEC.RESP` on some bytes that give this result (42_decode.md rule R97). -/
theorem exec_of_returned_dec {i : Instr} {r : DecResult} (hr : returned i = .dec r) :
    ∃ rx, r = decodeResponse rx ∧ ∀ s : State, exec i s = s.decodeInto rx := by
  cases i <;> simp [returned] at hr <;> (subst hr; exact ⟨_, rfl, fun _ => rfl⟩)

/-- An instruction that returns nothing writes the accumulator alone (40_crc.md rules R70 and R71). -/
theorem exec_of_returned_nothing {i : Instr} (hr : returned i = .nothing) (s : State) :
    ∃ c, exec i s = .next (s.setCrc c) := by
  cases i <;> simp [returned] at hr
  · exact ⟨_, rfl⟩
  · exact ⟨_, rfl⟩
  · exact ⟨_, congrArg _ (foldl_foldByte _ _)⟩

/-- Everything an instruction can do that gives a next state: the accumulator is written, or a result of the encoder is latched, or a result of
the decoder is (10_state.md rule R19). -/
theorem exec_cases {i : Instr} {s t : State} (h : exec i s = .next t) :
    (∃ c, t = s.setCrc c)
    ∨ (∃ addr func startAddr quantity, t = s.latchEnc (encodeRead addr func startAddr quantity))
    ∨ (∃ rx, rx.length ≤ s.params.rxCapacity ∧ t = s.latchDec rx (decodeResponse rx)) := by
  have inj : ∀ {u : State}, (Host.Outcome.next u : Host.Outcome State Fault Refusal) = .next t → t = u := by
    intro u h; simpa using h.symm
  cases i with
  | crcInit => exact .inl ⟨_, inj h⟩
  | crcUpdate b => exact .inl ⟨_, inj h⟩
  | crcMsg bytes =>
    refine .inl ⟨crcFrom Config.crcInit bytes, ?_⟩
    rw [inj h]
    exact foldl_foldByte (s.setCrc Config.crcInit) bytes
  | encRead a f sa q => exact .inr (.inl ⟨_, _, _, _, inj h⟩)
  | encRir a sa q => exact .inr (.inl ⟨_, _, _, _, inj h⟩)
  | req a f sa q c => exact .inr (.inl ⟨_, _, _, _, inj h⟩)
  | reqRir a sa q c => exact .inr (.inl ⟨_, _, _, _, inj h⟩)
  | decResp rx => exact .inr (.inr ⟨_, decodeInto_eq_next h⟩)
  | rspData a f bc p c => exact .inr (.inr ⟨_, decodeInto_eq_next h⟩)
  | rspExc a f e c => exact .inr (.inr ⟨_, decodeInto_eq_next h⟩)

end Sys2Proof.Machine
end

