-- ==== Sys2Proof/Laws/Environment.lean ====
section
/-! SUPPORT. Laws of the environment (43_environment.md): what one transition of the assembler can do while a response is awaited, that every wait
ends, and what the engine's pacing and waiting leave unchanged. -/

namespace Sys2Proof.Machine

/-- Everything one transition can do while a response is awaited (rules R120 to R125): it ends the wait and the assembler is Idle, or the
assembler still awaits the same request, no less time having passed, and the deadline not reached where a time unit has. -/
theorem assemblerStep_awaiting (cfg : AssemblerConfig) (st : AssemblerState) (ev : AssemblerEvent) (generation quantity : Nat)
    (buffer : List Byte) (quiet : Option Nat) (elapsed : Nat)
    (h : st.phase = .awaiting generation quantity buffer quiet elapsed) :
    (∃ ending, (assemblerStep cfg st ev).2.ends = some ending ∧ (assemblerStep cfg st ev).1.phase = .idle)
    ∨ ((assemblerStep cfg st ev).2.ends = none ∧
        ∃ buffer' quiet', (assemblerStep cfg st ev).1.phase = .awaiting generation quantity buffer' quiet' (elapsed + ev.duration)
          ∧ (ev = .tick → elapsed + 1 < cfg.deadline)) := by
  unfold assemblerStep
  rw [h]
  cases ev with
  | write q => exact .inr ⟨rfl, _, _, h, nofun⟩
  | callerTimeout => exact .inl ⟨_, rfl, rfl⟩
  | transportError => exact .inl ⟨_, rfl, rfl⟩
  | chunk g bytes =>
    dsimp only
    split
    · unfold acceptChunk
      split
      · exact .inr ⟨rfl, _, _, rfl, nofun⟩
      · split
        · exact .inl ⟨_, rfl, rfl⟩
        · exact .inr ⟨rfl, _, _, rfl, nofun⟩
    · exact .inr ⟨rfl, _, _, h, nofun⟩
  | tick =>
    dsimp only
    unfold passTime
    split
    · exact .inl ⟨_, rfl, rfl⟩
    · split
      · exact .inl ⟨_, rfl, rfl⟩
      · exact .inr ⟨rfl, _, _, rfl, fun _ => by omega⟩

/-- A wait in which the next event ends it, or goes on after it. -/
theorem awaitEnd_cons (cfg : AssemblerConfig) (st : AssemblerState) (now : Nat) (ev : AssemblerEvent) (rest : List AssemblerEvent) :
    awaitEnd cfg st now (ev :: rest) =
      match (assemblerStep cfg st ev).2.ends with
      | some ending => ((assemblerStep cfg st ev).1, now + ev.duration, some ending)
      | none => awaitEnd cfg (assemblerStep cfg st ev).1 (now + ev.duration) rest := rfl

/-- Silence for as long as the deadline can last ends a wait (rule R124) and leaves the assembler Idle. -/
theorem awaitEnd_silence (cfg : AssemblerConfig) (generation quantity k : Nat) :
    ∀ (st : AssemblerState) (now : Nat) (buffer : List Byte) (quiet : Option Nat) (elapsed : Nat),
      st.phase = .awaiting generation quantity buffer quiet elapsed → cfg.deadline ≤ elapsed + k + 1 →
      ∃ st' now' ending, awaitEnd cfg st now (List.replicate (k + 1) .tick) = (st', now', some ending) ∧ st'.phase = .idle
        ∧ now ≤ now' := by
  induction k with
  | zero =>
    intro st now buffer quiet elapsed h hk
    obtain ⟨ending, he, hp⟩ | ⟨-, -, -, -, hd⟩ := assemblerStep_awaiting cfg st .tick _ _ _ _ _ h
    · exact ⟨_, _, ending, by rw [List.replicate_succ, awaitEnd_cons, he], hp, Nat.le_add_right _ _⟩
    · exact absurd (hd rfl) (by omega)
  | succ k ih =>
    intro st now buffer quiet elapsed h hk
    obtain ⟨ending, he, hp⟩ | ⟨he, _, _, hp, -⟩ := assemblerStep_awaiting cfg st .tick _ _ _ _ _ h
    · exact ⟨_, _, ending, by rw [List.replicate_succ, awaitEnd_cons, he], hp, Nat.le_add_right _ _⟩
    · obtain ⟨st', now', ending, e, hi, hn⟩ := ih _ (now + 1) _ _ _ hp (by simp only [AssemblerEvent.duration]; omega)
      exact ⟨st', now', ending, by rw [List.replicate_succ, awaitEnd_cons, he]; exact e, hi, by omega⟩

/-- Every wait ends (rule R124): after whatever events the link gives, silence reaches the deadline; the assembler is Idle then. -/
theorem awaitResponse_ends (cfg : AssemblerConfig) (generation quantity : Nat) (events : List AssemblerEvent) :
    ∀ (st : AssemblerState) (now : Nat) (buffer : List Byte) (quiet : Option Nat) (elapsed : Nat),
      st.phase = .awaiting generation quantity buffer quiet elapsed →
      ∃ st' now' ending, awaitResponse cfg st now events = (st', now', some ending) ∧ st'.phase = .idle ∧ now ≤ now' := by
  induction events with
  | nil => intro st now buffer quiet elapsed h; exact awaitEnd_silence cfg _ _ _ st now _ _ _ h (by omega)
  | cons ev rest ih =>
    intro st now buffer quiet elapsed h
    obtain ⟨ending, he, hp⟩ | ⟨he, _, _, hp, -⟩ := assemblerStep_awaiting cfg st ev _ _ _ _ _ h
    · exact ⟨_, _, ending, by rw [awaitResponse, List.cons_append, awaitEnd_cons, he], hp, Nat.le_add_right _ _⟩
    · obtain ⟨st', now', ending, e, hi, hn⟩ := ih _ (now + ev.duration) _ _ _ hp
      exact ⟨st', now', ending, by rw [awaitResponse, List.cons_append, awaitEnd_cons, he]; exact e, hi, by omega⟩

/-- A write while the assembler is Idle begins a wait (rule R120). -/
theorem assemblerStep_write (cfg : AssemblerConfig) (st : AssemblerState) (quantity : Nat) (h : st.phase = .idle) :
    (assemblerStep cfg st (.write quantity)).1 =
      { phase := .awaiting st.nextGeneration quantity [] none 0, nextGeneration := st.nextGeneration + 1 } := by
  simp [assemblerStep, h]

/-- After pacing, the next exchange may be issued (rule R135). -/
theorem pace_mayIssue (delay : Nat) (e : Engine) : mayIssue delay (e.pace delay).completedAt (e.pace delay).now = true := by
  unfold Engine.pace
  split
  · assumption
  · cases e.completedAt <;> simp [mayIssue]

/-- Pacing never goes back in time. -/
theorem pace_now (delay : Nat) (e : Engine) : e.now ≤ (e.pace delay).now := by
  unfold Engine.pace
  split
  · exact Nat.le_refl _
  · rename_i h
    cases hc : e.completedAt <;> simp [mayIssue, hc] at h ⊢
    omega

@[simp] theorem pace_block (delay : Nat) (e : Engine) : (e.pace delay).block = e.block := by unfold Engine.pace; split <;> rfl

@[simp] theorem pace_assembler (delay : Nat) (e : Engine) : (e.pace delay).assembler = e.assembler := by
  unfold Engine.pace; split <;> rfl

@[simp] theorem pace_connection (delay : Nat) (e : Engine) : (e.pace delay).connection = e.connection := by
  unfold Engine.pace; split <;> rfl

@[simp] theorem pace_completedAt (delay : Nat) (e : Engine) : (e.pace delay).completedAt = e.completedAt := by
  unfold Engine.pace; split <;> rfl

@[simp] theorem complete_block (e : Engine) : e.complete.block = e.block := rfl
@[simp] theorem complete_assembler (e : Engine) : e.complete.assembler = e.assembler := rfl
@[simp] theorem complete_connection (e : Engine) : e.complete.connection = e.connection := rfl
@[simp] theorem complete_now (e : Engine) : e.complete.now = e.now := rfl
@[simp] theorem complete_completedAt (e : Engine) : e.complete.completedAt = some e.now := rfl
@[simp] theorem wait_block (e : Engine) (n : Nat) : (e.wait n).block = e.block := rfl
@[simp] theorem wait_now (e : Engine) (n : Nat) : (e.wait n).now = e.now + n := rfl

/-- A transmission on an Idle assembler (rules R120 and R136): the write fails, or the wait for the response ends and its end is received. -/
theorem transmit_idle (cfg : EngineConfig) (link : Link) (quantity : Nat) (frame : List Byte) (e : Engine)
    (h : e.assembler.phase = .idle) :
    (link e.assembler.nextGeneration e.now frame = none ∧ e.transmit cfg link quantity frame = e.complete.fail)
    ∨ ∃ events st now ending, link e.assembler.nextGeneration e.now frame = some events
        ∧ awaitResponse cfg.assembler
            { phase := .awaiting e.assembler.nextGeneration quantity [] none 0, nextGeneration := e.assembler.nextGeneration + 1 }
            e.now events = (st, now, some ending)
        ∧ st.phase = .idle ∧ e.now ≤ now
        ∧ e.transmit cfg link quantity frame = ({ e with assembler := st, now := now } : Engine).complete.receive ending := by
  unfold Engine.transmit
  rw [h]
  cases hl : link e.assembler.nextGeneration e.now frame with
  | none => exact .inl ⟨rfl, rfl⟩
  | some events =>
    obtain ⟨st, now, ending, ha, hi, hn⟩ := awaitResponse_ends cfg.assembler _ _ events
      { phase := .awaiting e.assembler.nextGeneration quantity [] none 0, nextGeneration := e.assembler.nextGeneration + 1 }
      e.now _ _ _ rfl
    refine .inr ⟨events, st, now, ending, rfl, ha, hi, hn, ?_⟩
    simp only [assemblerStep_write _ _ _ h, ha, Option.bind_some]

/-- An exchange on a live session for a request in range (rules R85 and R136): the frame is transmitted at a time the pacing allows. -/
theorem exchange_in_range (cfg : EngineConfig) (link : Link) (r : ReadRequest) (e : Engine) (hc : e.connection = .live)
    (ha : slaveInRange r.slaveId = true) (hq : quantityInRange r.quantity = true) :
    let frame := requestBody r.slaveId r.func r.startAddr r.quantity
      ++ crcTail (crc16 (requestBody r.slaveId r.func r.startAddr r.quantity))
    exchange cfg link r e = (({ e with block := e.block.writeFrame frame } : Engine).pace cfg.commandDelay).transmit cfg link
      r.quantity.toNat frame := by
  intro frame
  have hx : exec r.instr e.block = .next (e.block.writeFrame frame) := by
    show Host.Outcome.next (e.block.latchEnc (encodeRead r.slaveId r.func r.startAddr r.quantity)) = _
    rw [encodeRead_ok _ _ _ _ ha hq]; rfl
  have hv : (e.block.writeFrame frame).encView = some (.ok frame) := rfl
  unfold exchange
  simp only [hc, hx, hv, Option.map_some, requestOf]

/-- An exchange that succeeds is not re-issued (rule R138). -/
theorem exchangeWithRetries_of_ok {cfg : EngineConfig} {link : Link} {r : ReadRequest} {e e' : Engine} {words : List Word}
    (h : exchange cfg link r e = some (e', .ok words)) (n : Nat) : exchangeWithRetries cfg link r n e = some (e', .ok words) := by
  cases n <;> simp [exchangeWithRetries, h]

/-- Receiving the end of a wait takes no time and completes nothing by itself. -/
theorem receive_times {e e' : Engine} {ending : AwaitEnd} {r : ExchangeResult} (h : e.receive ending = some (e', r)) :
    e'.now = e.now ∧ e'.completedAt = e.completedAt := by
  cases ending with
  | timedOut => simp [Engine.receive] at h; simp [← h.1]
  | transportFailed => simp [Engine.receive, Engine.fail] at h; simp [← h.1]
  | complete bytes =>
    simp only [Engine.receive] at h
    split at h
    · simp only [Option.map_eq_some_iff, Prod.mk.injEq] at h
      obtain ⟨_, -, rfl, -⟩ := h
      exact ⟨rfl, rfl⟩
    · cases h
    · cases h

end Sys2Proof.Machine
end

