-- ==== Sys2Proof/Laws/Files.lean ====
section
/-! SUPPORT. Register files: what each entry of a file holds after it is written, and reading a file back. -/

namespace Sys2Proof.Machine

variable {α : Type} {n : Nat}

@[simp] theorem getElem_fileOf (l : List α) (i : Nat) (h : i < n) : (fileOf n l)[i] = l[i]? := by
  simp [fileOf]

@[simp] theorem getElem_absentFile (i : Nat) (h : i < n) : (absentFile n : Vector (Option α) n)[i] = none := by
  simp [absentFile]

/-- A file that has room for a list holds it, followed by entries without a value. -/
theorem toList_fileOf (l : List α) (h : l.length ≤ n) :
    (fileOf n l).toList = l.map some ++ List.replicate (n - l.length) none := by
  apply List.ext_getElem?
  intro i
  by_cases hi : i < n
  · rw [List.getElem?_eq_getElem (by simpa using hi)]
    simp only [Vector.getElem_toList, getElem_fileOf]
    by_cases hl : i < l.length
    · rw [List.getElem?_append_left (by simpa using hl)]
      simp [hl]
    · rw [List.getElem?_append_right (by simpa using hl)]
      have h1 : i - l.length < n - l.length := by omega
      simp [h1, List.getElem?_eq_none (Nat.le_of_not_lt hl)]
  · rw [List.getElem?_eq_none (by simpa using hi), List.getElem?_eq_none (by simp; omega)]

/-- Reading a file back gives the list it was written from. -/
theorem presentEntries_fileOf (l : List α) (h : l.length ≤ n) : presentEntries (fileOf n l) = l := by
  rw [presentEntries, toList_fileOf l h]
  simp

end Sys2Proof.Machine
end

