-- ==== Sys2Proof/Laws/PerInstr.lean ====
section
/-! SUPPORT. Statements about every instruction as syntax, one lemma per constructor (LAWS.json names the families). -/

namespace Sys2Proof.Laws.WfEncodable

/-- A well-formed instruction, on whatever instance, is one that has an encoding of its own. -/
def Statement (i : Instr) : Prop := ∀ p : Parameters, i.wf p = true → i.encodable = true

theorem crcInit : Statement .crcInit := fun _ _ => rfl

theorem crcUpdate (crcIn : Byte) : Statement (.crcUpdate crcIn) := fun _ _ => rfl

theorem encRead (slaveId func : Byte) (startAddr quantity : Word) :
    Statement (.encRead slaveId func startAddr quantity) := fun _ _ => rfl

theorem decResp (rx : List Byte) : Statement (.decResp rx) := fun _ _ => rfl

theorem crcMsg (bytes : List Byte) : Statement (.crcMsg bytes) := fun _ _ => rfl

theorem encRir (slaveId : Byte) (startAddr quantity : Word) :
    Statement (.encRir slaveId startAddr quantity) := fun _ _ => rfl

theorem req (addr func : Byte) (startAddr quantity crc : Word) :
    Statement (.req addr func startAddr quantity crc) := by
  intro p h
  simp only [Instr.wf, Bool.and_eq_true] at h
  exact h.1.1.1

theorem reqRir (addr : Byte) (startAddr quantity crc : Word) :
    Statement (.reqRir addr startAddr quantity crc) := fun _ _ => rfl

theorem rspData (addr : Byte) (func : BitVec 7) (bc : Byte) (payload : List Byte) (crc : Word) :
    Statement (.rspData addr func bc payload crc) := fun _ _ => rfl

theorem rspExc (addr : Byte) (func : BitVec 7) (exc : Byte) (crc : Word) :
    Statement (.rspExc addr func exc crc) := fun _ _ => rfl

end Sys2Proof.Laws.WfEncodable
end

