-- ==== Sys2Proof/Laws/State.lean ====
section
/-! SUPPORT. One lemma per field per state operation, all true by `rfl` or by a split on the result, so that no proof unfolds a record
update. -/

namespace Sys2Proof.Machine

section setCrc

@[simp] theorem setCrc_params (s : State) (c : Word) : (s.setCrc c).params = s.params := rfl
@[simp] theorem setCrc_pending (s : State) (c : Word) : (s.setCrc c).pending = s.pending := rfl
@[simp] theorem setCrc_crc (s : State) (c : Word) : (s.setCrc c).crc = c := rfl
@[simp] theorem setCrc_encStatus (s : State) (c : Word) : (s.setCrc c).encStatus = s.encStatus := rfl
@[simp] theorem setCrc_tx (s : State) (c : Word) : (s.setCrc c).tx = s.tx := rfl
@[simp] theorem setCrc_decStatus (s : State) (c : Word) : (s.setCrc c).decStatus = s.decStatus := rfl
@[simp] theorem setCrc_rAddr (s : State) (c : Word) : (s.setCrc c).rAddr = s.rAddr := rfl
@[simp] theorem setCrc_rFunc (s : State) (c : Word) : (s.setCrc c).rFunc = s.rFunc := rfl
@[simp] theorem setCrc_exc (s : State) (c : Word) : (s.setCrc c).exc = s.exc := rfl
@[simp] theorem setCrc_regCount (s : State) (c : Word) : (s.setCrc c).regCount = s.regCount := rfl
@[simp] theorem setCrc_reg (s : State) (c : Word) : (s.setCrc c).reg = s.reg := rfl

end setCrc

section foldByte

@[simp] theorem foldByte_params (s : State) (b : Byte) : (s.foldByte b).params = s.params := rfl
@[simp] theorem foldByte_pending (s : State) (b : Byte) : (s.foldByte b).pending = s.pending := rfl
@[simp] theorem foldByte_crc (s : State) (b : Byte) : (s.foldByte b).crc = crcByte s.crc b := rfl
@[simp] theorem foldByte_encStatus (s : State) (b : Byte) : (s.foldByte b).encStatus = s.encStatus := rfl
@[simp] theorem foldByte_tx (s : State) (b : Byte) : (s.foldByte b).tx = s.tx := rfl
@[simp] theorem foldByte_decStatus (s : State) (b : Byte) : (s.foldByte b).decStatus = s.decStatus := rfl
@[simp] theorem foldByte_rAddr (s : State) (b : Byte) : (s.foldByte b).rAddr = s.rAddr := rfl
@[simp] theorem foldByte_rFunc (s : State) (b : Byte) : (s.foldByte b).rFunc = s.rFunc := rfl
@[simp] theorem foldByte_exc (s : State) (b : Byte) : (s.foldByte b).exc = s.exc := rfl
@[simp] theorem foldByte_regCount (s : State) (b : Byte) : (s.foldByte b).regCount = s.regCount := rfl
@[simp] theorem foldByte_reg (s : State) (b : Byte) : (s.foldByte b).reg = s.reg := rfl

end foldByte

section writeFrame

@[simp] theorem writeFrame_params (s : State) (frame : List Byte) : (s.writeFrame frame).params = s.params := rfl
@[simp] theorem writeFrame_pending (s : State) (frame : List Byte) : (s.writeFrame frame).pending = s.pending := rfl
@[simp] theorem writeFrame_crc (s : State) (frame : List Byte) : (s.writeFrame frame).crc = s.crc := rfl
@[simp] theorem writeFrame_encStatus (s : State) (frame : List Byte) : (s.writeFrame frame).encStatus = statusCode .ok := rfl
@[simp] theorem writeFrame_tx (s : State) (frame : List Byte) : (s.writeFrame frame).tx = fileOf 8 frame := rfl
@[simp] theorem writeFrame_decStatus (s : State) (frame : List Byte) : (s.writeFrame frame).decStatus = s.decStatus := rfl
@[simp] theorem writeFrame_rAddr (s : State) (frame : List Byte) : (s.writeFrame frame).rAddr = s.rAddr := rfl
@[simp] theorem writeFrame_rFunc (s : State) (frame : List Byte) : (s.writeFrame frame).rFunc = s.rFunc := rfl
@[simp] theorem writeFrame_exc (s : State) (frame : List Byte) : (s.writeFrame frame).exc = s.exc := rfl
@[simp] theorem writeFrame_regCount (s : State) (frame : List Byte) : (s.writeFrame frame).regCount = s.regCount := rfl
@[simp] theorem writeFrame_reg (s : State) (frame : List Byte) : (s.writeFrame frame).reg = s.reg := rfl

end writeFrame

section failEncoder

@[simp] theorem failEncoder_params (s : State) (st : Status) : (s.failEncoder st).params = s.params := rfl
@[simp] theorem failEncoder_pending (s : State) (st : Status) : (s.failEncoder st).pending = s.pending := rfl
@[simp] theorem failEncoder_crc (s : State) (st : Status) : (s.failEncoder st).crc = s.crc := rfl
@[simp] theorem failEncoder_encStatus (s : State) (st : Status) : (s.failEncoder st).encStatus = statusCode st := rfl
@[simp] theorem failEncoder_tx (s : State) (st : Status) : (s.failEncoder st).tx = absentFile 8 := rfl
@[simp] theorem failEncoder_decStatus (s : State) (st : Status) : (s.failEncoder st).decStatus = s.decStatus := rfl
@[simp] theorem failEncoder_rAddr (s : State) (st : Status) : (s.failEncoder st).rAddr = s.rAddr := rfl
@[simp] theorem failEncoder_rFunc (s : State) (st : Status) : (s.failEncoder st).rFunc = s.rFunc := rfl
@[simp] theorem failEncoder_exc (s : State) (st : Status) : (s.failEncoder st).exc = s.exc := rfl
@[simp] theorem failEncoder_regCount (s : State) (st : Status) : (s.failEncoder st).regCount = s.regCount := rfl
@[simp] theorem failEncoder_reg (s : State) (st : Status) : (s.failEncoder st).reg = s.reg := rfl

end failEncoder

section failDecoder

@[simp] theorem failDecoder_params (s : State) (st : Status) : (s.failDecoder st).params = s.params := rfl
@[simp] theorem failDecoder_pending (s : State) (st : Status) : (s.failDecoder st).pending = s.pending := rfl
@[simp] theorem failDecoder_crc (s : State) (st : Status) : (s.failDecoder st).crc = s.crc := rfl
@[simp] theorem failDecoder_encStatus (s : State) (st : Status) : (s.failDecoder st).encStatus = s.encStatus := rfl
@[simp] theorem failDecoder_tx (s : State) (st : Status) : (s.failDecoder st).tx = s.tx := rfl
@[simp] theorem failDecoder_decStatus (s : State) (st : Status) : (s.failDecoder st).decStatus = statusCode st := rfl
@[simp] theorem failDecoder_rAddr (s : State) (st : Status) : (s.failDecoder st).rAddr = none := rfl
@[simp] theorem failDecoder_rFunc (s : State) (st : Status) : (s.failDecoder st).rFunc = none := rfl
@[simp] theorem failDecoder_exc (s : State) (st : Status) : (s.failDecoder st).exc = none := rfl
@[simp] theorem failDecoder_regCount (s : State) (st : Status) : (s.failDecoder st).regCount = none := rfl
@[simp] theorem failDecoder_reg (s : State) (st : Status) : (s.failDecoder st).reg = absentFile 127 := rfl

end failDecoder

section writeRegisters

@[simp] theorem writeRegisters_params (s : State) (addr func : Byte) (regs : List Word) : (s.writeRegisters addr func regs).params = s.params := rfl
@[simp] theorem writeRegisters_pending (s : State) (addr func : Byte) (regs : List Word) : (s.writeRegisters addr func regs).pending = s.pending := rfl
@[simp] theorem writeRegisters_crc (s : State) (addr func : Byte) (regs : List Word) : (s.writeRegisters addr func regs).crc = s.crc := rfl
@[simp] theorem writeRegisters_encStatus (s : State) (addr func : Byte) (regs : List Word) : (s.writeRegisters addr func regs).encStatus = s.encStatus := rfl
@[simp] theorem writeRegisters_tx (s : State) (addr func : Byte) (regs : List Word) : (s.writeRegisters addr func regs).tx = s.tx := rfl
@[simp] theorem writeRegisters_decStatus (s : State) (addr func : Byte) (regs : List Word) : (s.writeRegisters addr func regs).decStatus = statusCode .ok := rfl
@[simp] theorem writeRegisters_rAddr (s : State) (addr func : Byte) (regs : List Word) : (s.writeRegisters addr func regs).rAddr = some addr := rfl
@[simp] theorem writeRegisters_rFunc (s : State) (addr func : Byte) (regs : List Word) : (s.writeRegisters addr func regs).rFunc = some func := rfl
@[simp] theorem writeRegisters_exc (s : State) (addr func : Byte) (regs : List Word) : (s.writeRegisters addr func regs).exc = none := rfl
@[simp] theorem writeRegisters_regCount (s : State) (addr func : Byte) (regs : List Word) : (s.writeRegisters addr func regs).regCount = some (BitVec.ofNat 7 regs.length) := rfl
@[simp] theorem writeRegisters_reg (s : State) (addr func : Byte) (regs : List Word) : (s.writeRegisters addr func regs).reg = fileOf 127 regs := rfl

end writeRegisters

section writeException

@[simp] theorem writeException_params (s : State) (rx : List Byte) (code : Byte) : (s.writeException rx code).params = s.params := rfl
@[simp] theorem writeException_pending (s : State) (rx : List Byte) (code : Byte) : (s.writeException rx code).pending = s.pending := rfl
@[simp] theorem writeException_crc (s : State) (rx : List Byte) (code : Byte) : (s.writeException rx code).crc = s.crc := rfl
@[simp] theorem writeException_encStatus (s : State) (rx : List Byte) (code : Byte) : (s.writeException rx code).encStatus = s.encStatus := rfl
@[simp] theorem writeException_tx (s : State) (rx : List Byte) (code : Byte) : (s.writeException rx code).tx = s.tx := rfl
@[simp] theorem writeException_decStatus (s : State) (rx : List Byte) (code : Byte) : (s.writeException rx code).decStatus = statusCode .exceptionResponse := rfl
@[simp] theorem writeException_rAddr (s : State) (rx : List Byte) (code : Byte) : (s.writeException rx code).rAddr = rx[0]? := rfl
@[simp] theorem writeException_rFunc (s : State) (rx : List Byte) (code : Byte) : (s.writeException rx code).rFunc = rx[1]? := rfl
@[simp] theorem writeException_exc (s : State) (rx : List Byte) (code : Byte) : (s.writeException rx code).exc = some code := rfl
@[simp] theorem writeException_regCount (s : State) (rx : List Byte) (code : Byte) : (s.writeException rx code).regCount = none := rfl
@[simp] theorem writeException_reg (s : State) (rx : List Byte) (code : Byte) : (s.writeException rx code).reg = absentFile 127 := rfl

end writeException

section resetBlock

@[simp] theorem resetBlock_params (s : State) : (s.resetBlock).params = s.params := rfl
@[simp] theorem resetBlock_pending (s : State) : (s.resetBlock).pending = s.pending := rfl
@[simp] theorem resetBlock_crc (s : State) : (s.resetBlock).crc = Config.crcInit := rfl
@[simp] theorem resetBlock_encStatus (s : State) : (s.resetBlock).encStatus = statusCode .none := rfl
@[simp] theorem resetBlock_tx (s : State) : (s.resetBlock).tx = absentFile 8 := rfl
@[simp] theorem resetBlock_decStatus (s : State) : (s.resetBlock).decStatus = statusCode .none := rfl
@[simp] theorem resetBlock_rAddr (s : State) : (s.resetBlock).rAddr = none := rfl
@[simp] theorem resetBlock_rFunc (s : State) : (s.resetBlock).rFunc = none := rfl
@[simp] theorem resetBlock_exc (s : State) : (s.resetBlock).exc = none := rfl
@[simp] theorem resetBlock_regCount (s : State) : (s.resetBlock).regCount = none := rfl
@[simp] theorem resetBlock_reg (s : State) : (s.resetBlock).reg = absentFile 127 := rfl

end resetBlock

section presentNext

@[simp] theorem presentNext_params (s : State) (e : HostEvent) : (s.presentNext e).params = s.params := rfl
@[simp] theorem presentNext_pending (s : State) (e : HostEvent) : (s.presentNext e).pending = e :: s.pending := rfl
@[simp] theorem presentNext_crc (s : State) (e : HostEvent) : (s.presentNext e).crc = s.crc := rfl
@[simp] theorem presentNext_encStatus (s : State) (e : HostEvent) : (s.presentNext e).encStatus = s.encStatus := rfl
@[simp] theorem presentNext_tx (s : State) (e : HostEvent) : (s.presentNext e).tx = s.tx := rfl
@[simp] theorem presentNext_decStatus (s : State) (e : HostEvent) : (s.presentNext e).decStatus = s.decStatus := rfl
@[simp] theorem presentNext_rAddr (s : State) (e : HostEvent) : (s.presentNext e).rAddr = s.rAddr := rfl
@[simp] theorem presentNext_rFunc (s : State) (e : HostEvent) : (s.presentNext e).rFunc = s.rFunc := rfl
@[simp] theorem presentNext_exc (s : State) (e : HostEvent) : (s.presentNext e).exc = s.exc := rfl
@[simp] theorem presentNext_regCount (s : State) (e : HostEvent) : (s.presentNext e).regCount = s.regCount := rfl
@[simp] theorem presentNext_reg (s : State) (e : HostEvent) : (s.presentNext e).reg = s.reg := rfl

end presentNext

section latch

@[simp] theorem latchEnc_ok (s : State) (frame : List Byte) : s.latchEnc (.ok frame) = s.writeFrame frame := rfl
@[simp] theorem latchEnc_invalid (s : State) :
    s.latchEnc .invalidParameter = s.failEncoder .invalidParameter := rfl
@[simp] theorem latchDec_ok (s : State) (rx : List Byte) (addr func : Byte) (regs : List Word) :
    s.latchDec rx (.ok addr func regs) = s.writeRegisters addr func regs := rfl
@[simp] theorem latchDec_exception (s : State) (rx : List Byte) (code : Byte) :
    s.latchDec rx (.exceptionResponse code) = s.writeException rx code := rfl
@[simp] theorem latchDec_short (s : State) (rx : List Byte) :
    s.latchDec rx .shortFrame = s.failDecoder .shortFrame := rfl
@[simp] theorem latchDec_crcMismatch (s : State) (rx : List Byte) :
    s.latchDec rx .crcMismatch = s.failDecoder .crcMismatch := rfl
@[simp] theorem latchDec_malformed (s : State) (rx : List Byte) :
    s.latchDec rx .malformedPayload = s.failDecoder .malformedPayload := rfl

@[simp] theorem latchEnc_params (s : State) (r : EncResult) : (s.latchEnc r).params = s.params := by cases r <;> rfl
@[simp] theorem latchEnc_pending (s : State) (r : EncResult) : (s.latchEnc r).pending = s.pending := by cases r <;> rfl
@[simp] theorem latchEnc_crc (s : State) (r : EncResult) : (s.latchEnc r).crc = s.crc := by cases r <;> rfl
@[simp] theorem latchEnc_decStatus (s : State) (r : EncResult) : (s.latchEnc r).decStatus = s.decStatus := by cases r <;> rfl
@[simp] theorem latchEnc_rAddr (s : State) (r : EncResult) : (s.latchEnc r).rAddr = s.rAddr := by cases r <;> rfl
@[simp] theorem latchEnc_rFunc (s : State) (r : EncResult) : (s.latchEnc r).rFunc = s.rFunc := by cases r <;> rfl
@[simp] theorem latchEnc_exc (s : State) (r : EncResult) : (s.latchEnc r).exc = s.exc := by cases r <;> rfl
@[simp] theorem latchEnc_regCount (s : State) (r : EncResult) : (s.latchEnc r).regCount = s.regCount := by cases r <;> rfl
@[simp] theorem latchEnc_reg (s : State) (r : EncResult) : (s.latchEnc r).reg = s.reg := by cases r <;> rfl
@[simp] theorem latchDec_params (s : State) (rx : List Byte) (r : DecResult) :
    (s.latchDec rx r).params = s.params := by cases r <;> rfl
@[simp] theorem latchDec_pending (s : State) (rx : List Byte) (r : DecResult) :
    (s.latchDec rx r).pending = s.pending := by cases r <;> rfl
@[simp] theorem latchDec_crc (s : State) (rx : List Byte) (r : DecResult) :
    (s.latchDec rx r).crc = s.crc := by cases r <;> rfl
@[simp] theorem latchDec_encStatus (s : State) (rx : List Byte) (r : DecResult) :
    (s.latchDec rx r).encStatus = s.encStatus := by cases r <;> rfl
@[simp] theorem latchDec_tx (s : State) (rx : List Byte) (r : DecResult) :
    (s.latchDec rx r).tx = s.tx := by cases r <;> rfl

/-- The status a latched encoder result leaves (41_encode.md rule R86). -/
@[simp] theorem latchEnc_encStatus (s : State) (r : EncResult) :
    (s.latchEnc r).encStatus = statusCode (encResultStatus r) := by cases r <;> rfl

/-- The status a latched decoder result leaves (42_decode.md rule R97). -/
@[simp] theorem latchDec_decStatus (s : State) (rx : List Byte) (r : DecResult) :
    (s.latchDec rx r).decStatus = statusCode (decResultStatus r) := by cases r <;> rfl

end latch

end Sys2Proof.Machine
end

