-- ==== Sys2Proof/Laws/Step.lean ====
section
/-! SUPPORT. What a step can do, said once: an inversion lemma that later proofs cite instead of unfolding `step`. -/

namespace Sys2Proof.Machine

@[simp] theorem takeEvent_nil (s : State) (h : s.pending = []) : s.takeEvent = none := by
  simp [State.takeEvent, h]

theorem takeEvent_cons (s : State) (e : HostEvent) (rest : List HostEvent) (h : s.pending = e :: rest) :
    s.takeEvent = some (e, { s with pending := rest }) := by
  simp [State.takeEvent, h]

/-- A step that gives a next state took one thing the host presents: the reset event, or something the decoder reads. -/
theorem step_cases {s t : State} (h : step s = .next t) :
    (∃ rest, s.pending = .reset :: rest ∧ t = ({ s with pending := rest } : State).resetBlock)
    ∨ (∃ p rest i, s.pending = .present p :: rest ∧ decode p = .ok i ∧
        exec i { s with pending := rest } = .next t) := by
  cases hp : s.pending with
  | nil => simp [step, takeEvent_nil s hp] at h
  | cons e rest =>
    simp only [step, takeEvent_cons s e rest hp] at h
    cases e with
    | reset => exact .inl ⟨rest, rfl, by simpa using h.symm⟩
    | present p =>
      cases hd : decode p with
      | error e => simp [hd] at h
      | ok i => exact .inr ⟨p, rest, i, rfl, hd, by simpa [hd] using h⟩

end Sys2Proof.Machine
end

