-- ==== Sys2Proof/Tests/Slice0.lean ====
section
/-! SUPPORT. The model's own tests: the well-formedness checks refuse, the decoder reads words written out from the spec's encodings, each instruction
on one small state, and for every statement a state and operands that meet its hypotheses. Expected values are those of
95_test_vectors.md and of the rules' own examples, never the model's. -/

namespace Sys2Proof.Tests

open Sys2Proof.Machine

set_option Elab.async false

/-- The next state of an instruction, where it has one. -/
def ran (i : Instr) (s : State) : Option State :=
  match exec i s with
  | .next t => some t
  | .fault _ => none
  | .refused _ => none

/-- The next state of a step, where it has one. -/
def stepped (s : State) : Option State :=
  match step s with
  | .next t => some t
  | .fault _ => none
  | .refused _ => none

/-- The state after reset with something presented. -/
def presenting (p : Presented) : State := State.reset.presentNext (.present p)

/-- The state after reset on an instance of another capacity. -/
def withCapacity (n : Nat) : State := { State.reset with params := { rxCapacity := n } }

/-- A state that no reset leaves: the accumulator in the middle of a message. -/
def midMessage : State := State.reset.setCrc 0x1234#16

/-! ### Well-formedness: an ill-formed term for each check -/

theorem test_wf_refuses_decResp_over_capacity :
    (Instr.decResp (List.replicate 261 0#8)).wf Config.default = false := by decide +kernel

theorem test_wf_refuses_req_with_function_four :
    (Instr.req 0x01#8 0x04#8 0x8119#16 1#16 0x31C8#16).wf Config.default = false := by decide +kernel

theorem test_wf_refuses_req_slave_zero :
    (Instr.req 0x00#8 0x03#8 0#16 10#16 (crc16 (requestBody 0x00#8 0x03#8 0#16 10#16))).wf Config.default = false := by decide +kernel

theorem test_wf_refuses_req_quantity_126 :
    (Instr.req 0x01#8 0x03#8 0#16 126#16 (crc16 (requestBody 0x01#8 0x03#8 0#16 126#16))).wf Config.default = false := by decide +kernel

theorem test_wf_refuses_req_wrong_crc :
    (Instr.req 0x01#8 0x03#8 0#16 10#16 0xCDC4#16).wf Config.default = false := by decide +kernel

theorem test_wf_refuses_reqRir_slave_248 :
    (Instr.reqRir 0xF8#8 0#16 1#16 (crc16 (requestBody 0xF8#8 0x04#8 0#16 1#16))).wf Config.default = false := by decide +kernel

theorem test_wf_refuses_reqRir_quantity_zero :
    (Instr.reqRir 0x01#8 0#16 0#16 (crc16 (requestBody 0x01#8 0x04#8 0#16 0#16))).wf Config.default = false := by decide +kernel

theorem test_wf_refuses_reqRir_wrong_crc :
    (Instr.reqRir 0x01#8 0x8119#16 1#16 0xC831#16).wf Config.default = false := by decide +kernel

theorem test_wf_refuses_rspData_byte_count :
    (Instr.rspData 0x01#8 0x04#7 0x04#8 [0x09#8, 0x92#8] 0xCCDE#16).wf Config.default = false := by decide +kernel

theorem test_wf_refuses_rspData_over_capacity :
    (Instr.rspData 0x01#8 0x04#7 0x02#8 [0x09#8, 0x92#8] 0xCD3E#16).wf { rxCapacity := 6 } = false := by decide +kernel

theorem test_wf_refuses_rspData_wrong_crc :
    (Instr.rspData 0x01#8 0x04#7 0x02#8 [0x09#8, 0x92#8] 0x3ECD#16).wf Config.default = false := by decide +kernel

theorem test_wf_refuses_rspExc_over_capacity :
    (Instr.rspExc 0x01#8 0x04#7 0x02#8 0xC1C2#16).wf { rxCapacity := 4 } = false := by decide +kernel

theorem test_wf_refuses_rspExc_wrong_crc :
    (Instr.rspExc 0x01#8 0x04#7 0x02#8 0xC0C2#16).wf Config.default = false := by decide +kernel

/-- Terms that the checks let through: V-N4, V-N1, V-D1 and V-D4 of 95_test_vectors.md. -/
theorem test_wf_accepts_the_spec_frames :
    (Instr.req 0x01#8 0x03#8 0#16 10#16 0xCDC5#16).wf Config.default = true
    ∧ (Instr.reqRir 0x01#8 33049#16 1#16 0x31C8#16).wf Config.default = true
    ∧ (Instr.rspData 0x01#8 0x04#7 0x02#8 [0x09#8, 0x92#8] 0xCD3E#16).wf Config.default = true
    ∧ (Instr.rspExc 0x01#8 0x04#7 0x02#8 0xC1C2#16).wf Config.default = true := by decide +kernel

/-! ### Decoding: words written out from the spec's encodings -/

/-- The select codes of 30_encoding.md rule R45, with every unused port busy (rule R46). -/
theorem test_decode_operations :
    decode (.operation ⟨0b00#2, 0x55#8, 0x11#8, 0x22#8, 0x3333#16, 0x4444#16, [0x66#8]⟩) = .ok .crcInit
    ∧ decode (.operation ⟨0b01#2, 0x81#8, 0x11#8, 0x22#8, 0x3333#16, 0x4444#16, [0x66#8]⟩) = .ok (.crcUpdate 0x81#8)
    ∧ decode (.operation ⟨0b10#2, 0x55#8, 0x01#8, 0x04#8, 0x8119#16, 0x0001#16, [0x66#8]⟩)
        = .ok (.encRead 0x01#8 0x04#8 33049#16 1#16)
    ∧ decode (.operation ⟨0b11#2, 0x55#8, 0x11#8, 0x22#8, 0x3333#16, 0x4444#16, [0x01#8, 0x04#8]⟩)
        = .ok (.decResp [0x01#8, 0x04#8]) := by decide +kernel

/-- The expansions of rule R63: `op=00` then `op=01` for each byte; `op=10` with `func` 4 (programs P4 and P5). -/
theorem test_decode_pseudo_operations :
    decode (.line [⟨0b00#2, 0#8, 0#8, 0#8, 0#16, 0#16, []⟩, ⟨0b01#2, 0x01#8, 0#8, 0#8, 0#16, 0#16, []⟩,
      ⟨0b01#2, 0x04#8, 0#8, 0#8, 0#16, 0#16, []⟩]) = .ok (.crcMsg [0x01#8, 0x04#8])
    ∧ decode (.line [⟨0b10#2, 0#8, 0x01#8, 0x04#8, 0x817D#16, 0x0002#16, []⟩]) = .ok (.encRir 0x01#8 33149#16 2#16)
    ∧ decode (.line [⟨0b10#2, 0#8, 0x01#8, 0x03#8, 0x817D#16, 0x0002#16, []⟩]) = .error .notAPseudoOperation
    ∧ decode (.line []) = .error .notAPseudoOperation := by decide +kernel

/-- Frames of formats `REQ`, `REQ.RIR`, `RSP.DATA` and `RSP.EXC` (rules R48 to R51), and bytes of no format. -/
theorem test_decode_frames :
    decode (.request [0x01#8, 0x03#8, 0x00#8, 0x00#8, 0x00#8, 0x0A#8, 0xC5#8, 0xCD#8])
      = .ok (.req 0x01#8 0x03#8 0#16 10#16 0xCDC5#16)
    ∧ decode (.request [0x01#8, 0x04#8, 0x81#8, 0x19#8, 0x00#8, 0x01#8, 0xC8#8, 0x31#8])
      = .ok (.reqRir 0x01#8 33049#16 1#16 0x31C8#16)
    ∧ decode (.response [0x01#8, 0x04#8, 0x02#8, 0x09#8, 0x92#8, 0x3E#8, 0xCD#8])
      = .ok (.rspData 0x01#8 0x04#7 0x02#8 [0x09#8, 0x92#8] 0xCD3E#16)
    ∧ decode (.response [0x01#8, 0x84#8, 0x02#8, 0xC2#8, 0xC1#8]) = .ok (.rspExc 0x01#8 0x04#7 0x02#8 0xC1C2#16)
    ∧ decode (.request [0x01#8, 0x04#8]) = .error .notARequestFrame
    ∧ decode (.response [0x01#8, 0x04#8]) = .ok (.decResp [0x01#8, 0x04#8]) := by decide +kernel

/-- Calls on software integers (rule R87): one too large for the port is refused, never truncated, and 257 is no slave 1. -/
theorem test_decode_calls :
    decode (.call 1 4 65536 1) = .error .startAddressTooWide
    ∧ decode (.call 1 256 0 1) = .error .functionCodeTooWide
    ∧ decode (.call 1 (-1) 0 1) = .error .functionCodeTooWide
    ∧ decode (.call 257 4 0 1) = .ok (.encRead 0#8 4#8 0#16 1#16)
    ∧ decode (.call 1 4 65535 65537) = .ok (.encRead 1#8 4#8 0xFFFF#16 0#16) := by decide +kernel

/-- The table's words (spec/opcode_table.json): the four select codes, the mask and match of `REQ.RIR`, the fixed bit of `RSP.EXC` and a clear bit 7 for
`RSP.DATA`. -/
theorem test_decode_table_words :
    decodeTableWord 8 0 = some .crcInit
    ∧ decodeTableWord 8 1 = some (.crcUpdate 0#8)
    ∧ decodeTableWord 8 2 = some (.encRead 0#8 0#8 0#16 0#16)
    ∧ decodeTableWord 8 3 = some (.decResp [])
    ∧ decodeTableWord 64 0x0004000000000000 = some (.reqRir 0#8 0#16 0#16 0#16)
    ∧ decodeTableWord 64 0x0103000000AC5CD = some (.req 0#8 0x10#8 0x3000#16 0x000A#16 0xCDC5#16)
    ∧ decodeTableWord 40 0x0080000000 = some (.rspExc 0#8 0#7 0#8 0#16)
    ∧ decodeTableWord 24 0x010400 = some (.rspData 1#8 4#7 0#8 [] 0#16) := by decide +kernel

/-- The very next step runs a table word, with nothing else placed. -/
theorem test_step_runs_table_words :
    (stepped (midMessage.withFetchWord 8 0)).map State.crc = some 0xFFFF#16
    ∧ (stepped (State.reset.withFetchWord 8 2)).map State.encStatus = some 1#3
    ∧ (stepped (State.reset.withFetchWord 8 3)).map State.decStatus = some 2#3
    ∧ (stepped (State.reset.withFetchWord 40 0x0080000000)).map State.decStatus = some 3#3
    ∧ (stepped (State.reset.withFetchWord 8 1)).map State.pending = some [] := by decide +kernel

/-! ### Instructions -/

/-- The example of rule R70. -/
theorem test_crcInit_from_the_middle : (ran .crcInit midMessage).map State.crc = some 0xFFFF#16 := by decide +kernel

/-- Vectors V-C6 to V-C15. -/
theorem test_crcUpdate_vectors :
    ([(0xFFFF#16, 0x01#8, 0x807E#16),
      (0xFFFF#16, 0x00#8, 0x40BF#16),
      (0xFFFF#16, 0xFF#8, 0x00FF#16),
      (0x0000#16, 0x00#8, 0x0000#16),
      (0x0000#16, 0x01#8, 0xC0C1#16),
      (0x0001#16, 0x00#8, 0xC0C1#16),
      (0x8000#16, 0x00#8, 0x0080#16),
      (0x00FF#16, 0xFF#8, 0x0000#16),
      (0x1234#16, 0x56#8, 0xE993#16),
      (0x807E#16, 0x04#8, 0xE301#16)] : List (Word × Byte × Word)).all
      (fun v => (ran (.crcUpdate v.2.1) (State.reset.setCrc v.1)).map State.crc == some v.2.2) = true := by decide +kernel

/-- Vectors V-C1 to V-C5. -/
theorem test_crcShift_vectors :
    crcShift 0x0000#16 = 0x0000#16 ∧ crcShift 0x0001#16 = 0xA001#16 ∧ crcShift 0x0002#16 = 0x0001#16
    ∧ crcShift 0x8000#16 = 0x4000#16 ∧ crcShift 0xFFFF#16 = 0xDFFE#16 := by decide +kernel

/-- Vectors V-C16 to V-C29, from the middle of another message. -/
theorem test_crcMsg_vectors :
    ([([], 0xFFFF#16),
      ([0x00#8], 0x40BF#16),
      ([0xFF#8], 0x00FF#16),
      ([0x41#8], 0x707F#16),
      ([0x01#8, 0x04#8], 0xE301#16),
      ([0x00#8, 0x00#8, 0x00#8, 0x00#8], 0x2400#16),
      ([0xFF#8, 0xFF#8, 0xFF#8, 0xFF#8], 0xB001#16),
      ([0x31#8, 0x32#8, 0x33#8, 0x34#8, 0x35#8, 0x36#8, 0x37#8, 0x38#8, 0x39#8], 0x4B37#16),
      ([0x01#8, 0x04#8, 0x81#8, 0x19#8, 0x00#8, 0x01#8], 0x31C8#16),
      ([0x01#8, 0x04#8, 0x02#8, 0x09#8, 0x92#8], 0xCD3E#16),
      ([0x01#8, 0x84#8, 0x02#8], 0xC1C2#16),
      ([0x01#8, 0x04#8, 0x02#8, 0x09#8, 0x92#8, 0x3E#8, 0xCD#8], 0x0000#16),
      ([0x01#8, 0x04#8, 0x81#8, 0x19#8, 0x00#8, 0x01#8, 0xC8#8, 0x31#8], 0x0000#16)] : List (List Byte × Word)).all
      (fun v => (ran (.crcMsg v.1) midMessage).map State.crc == some v.2) = true := by decide +kernel

/-- Vectors V-N1 to V-N12. -/
theorem test_encRead_vectors :
    ([(.encRead 1#8 4#8 33049#16 1#16, [0x01#8, 0x04#8, 0x81#8, 0x19#8, 0x00#8, 0x01#8, 0xC8#8, 0x31#8]),
      (.encRead 247#8 4#8 65535#16 125#16, [0xF7#8, 0x04#8, 0xFF#8, 0xFF#8, 0x00#8, 0x7D#8, 0x24#8, 0x99#8]),
      (.encRead 1#8 4#8 0#16 1#16, [0x01#8, 0x04#8, 0x00#8, 0x00#8, 0x00#8, 0x01#8, 0x31#8, 0xCA#8]),
      (.encRead 1#8 3#8 0#16 10#16, [0x01#8, 0x03#8, 0x00#8, 0x00#8, 0x00#8, 0x0A#8, 0xC5#8, 0xCD#8]),
      (.encRead 17#8 4#8 8#16 1#16, [0x11#8, 0x04#8, 0x00#8, 0x08#8, 0x00#8, 0x01#8, 0xB2#8, 0x98#8]),
      (.encRead 1#8 0x84#8 0#16 1#16, [0x01#8, 0x84#8, 0x00#8, 0x00#8, 0x00#8, 0x01#8, 0x30#8, 0x14#8]),
      (.encRead 1#8 4#8 0x0300#16 1#16, [0x01#8, 0x04#8, 0x03#8, 0x00#8, 0x00#8, 0x01#8, 0x31#8, 0x8E#8]),
      (.encRead 1#8 4#8 0#16 125#16, [0x01#8, 0x04#8, 0x00#8, 0x00#8, 0x00#8, 0x7D#8, 0x30#8, 0x2B#8]),
      (.encRead 247#8 4#8 33095#16 1#16, [0xF7#8, 0x04#8, 0x81#8, 0x47#8, 0x00#8, 0x01#8, 0xBD#8, 0x75#8]),
      (.encRead 1#8 4#8 65535#16 2#16, [0x01#8, 0x04#8, 0xFF#8, 0xFF#8, 0x00#8, 0x02#8, 0x71#8, 0xEF#8]),
      (.encRead 1#8 0#8 0#16 1#16, [0x01#8, 0x00#8, 0x00#8, 0x00#8, 0x00#8, 0x01#8, 0xC0#8, 0x0A#8]),
      (.encRead 1#8 255#8 0xABCD#16 125#16, [0x01#8, 0xFF#8, 0xAB#8, 0xCD#8, 0x00#8, 0x7D#8, 0x64#8, 0x24#8])] : List (Instr × List Byte)).all
      (fun v => (ran v.1 midMessage).map (fun t => (t.encView, t.tx.toList, t.crc, t.decStatus))
        == some (some (.ok v.2), v.2.map some, 0x1234#16, 7#3)) = true := by decide +kernel

/-- Vectors V-N13 to V-N21, after a successful request: no byte of it is left. -/
theorem test_encRead_rejections :
    ([.encRead 0#8 4#8 0#16 1#16, .encRead 248#8 4#8 0#16 1#16, .encRead 255#8 4#8 0#16 1#16, .encRead 1#8 4#8 0#16 0#16, .encRead 1#8 4#8 0#16 126#16, .encRead 1#8 4#8 0#16 256#16, .encRead 1#8 4#8 0#16 257#16, .encRead 1#8 4#8 0#16 65535#16, .encRead 0#8 4#8 0#16 0#16] : List Instr).all
      (fun i => ((ran (.encRead 1#8 4#8 0#16 1#16) State.reset).bind (ran i)).map (fun t => (t.encStatus, t.tx))
        == some (1#3, Vector.replicate 8 none)) = true := by decide +kernel

/-- The request for battery power (program P5; 43_environment.md rule R131). -/
theorem test_encRir_battery_power :
    (ran (.encRir 1#8 33149#16 2#16) State.reset).map (fun t => (t.encStatus, t.tx.toList))
      = some (0#3, [0x01#8, 0x04#8, 0x81#8, 0x7D#8, 0x00#8, 0x02#8, 0xC9#8, 0xEF#8].map some) := by decide +kernel

/-- V-N4 as a frame: the operation that produces it leaves exactly its bytes. -/
theorem test_req_is_produced :
    (ran (.req 0x01#8 0x03#8 0#16 10#16 0xCDC5#16) State.reset).map (fun t => (t.encStatus, t.tx.toList))
      = some (0#3, [0x01#8, 0x03#8, 0x00#8, 0x00#8, 0x00#8, 0x0A#8, 0xC5#8, 0xCD#8].map some) := by decide +kernel

/-- V-N1 as a frame; and an illegal slave address is rejected as rule R57 says. -/
theorem test_reqRir_is_produced :
    (ran (.reqRir 0x01#8 33049#16 1#16 0x31C8#16) State.reset).map (fun t => (t.encStatus, t.tx.toList))
      = some (0#3, [0x01#8, 0x04#8, 0x81#8, 0x19#8, 0x00#8, 0x01#8, 0xC8#8, 0x31#8].map some)
    ∧ (ran (.reqRir 0x00#8 33049#16 1#16 0#16) State.reset).map State.encStatus = some 1#3 := by decide +kernel

/-- Frames that decode and exception responses (95_test_vectors.md sections 5.1 and 5.2, and V-X5), each from a state with an earlier failure. -/
theorem test_decResp_vectors :
    ([([0x01#8, 0x04#8, 0x02#8, 0x09#8, 0x92#8, 0x3E#8, 0xCD#8], .ok 0x01#8 0x04#8 [0x0992#16]),
      ([0x01#8, 0x04#8, 0x04#8, 0x00#8, 0x00#8, 0x03#8, 0x84#8, 0xFB#8, 0x17#8], .ok 0x01#8 0x04#8 [0x0000#16, 0x0384#16]),
      ([0x01#8, 0x04#8, 0x00#8, 0x22#8, 0xC0#8], .ok 0x01#8 0x04#8 []),
      ([0xF8#8, 0x03#8, 0x02#8, 0x12#8, 0x34#8, 0x29#8, 0x27#8], .ok 0xF8#8 0x03#8 [0x1234#16]),
      ([0x00#8, 0x04#8, 0x02#8, 0xBE#8, 0xEF#8, 0xB4#8, 0xDC#8], .ok 0x00#8 0x04#8 [0xBEEF#16]),
      ([0xFF#8, 0x7F#8, 0x00#8, 0x61#8, 0xC0#8], .ok 0xFF#8 0x7F#8 []),
      ([0x01#8, 0x04#8, 0x02#8, 0x00#8, 0x02#8, 0x38#8, 0xF1#8], .ok 0x01#8 0x04#8 [0x0002#16]),
      ([0x01#8, 0x04#8, 0x02#8, 0x00#8, 0x63#8, 0xF9#8, 0x19#8], .ok 0x01#8 0x04#8 [0x0063#16]),
      ([0x01#8, 0x04#8, 0x04#8, 0xFF#8, 0xFF#8, 0xFC#8, 0x1C#8, 0xBB#8, 0x69#8], .ok 0x01#8 0x04#8 [0xFFFF#16, 0xFC1C#16]),
      ([0x01#8, 0x04#8, 0x04#8, 0xFF#8, 0xFF#8, 0xFC#8, 0x18#8, 0xBA#8, 0xAA#8], .ok 0x01#8 0x04#8 [0xFFFF#16, 0xFC18#16]),
      ([0x01#8, 0x04#8, 0x04#8, 0x00#8, 0x01#8, 0x00#8, 0x02#8, 0x2B#8, 0x85#8], .ok 0x01#8 0x04#8 [0x0001#16, 0x0002#16]),
      ([0x01#8, 0x04#8, 0x04#8, 0xFF#8, 0xFF#8, 0xFF#8, 0xFE#8, 0x3B#8, 0xD0#8], .ok 0x01#8 0x04#8 [0xFFFF#16, 0xFFFE#16]),
      ([0x01#8, 0x04#8, 0x06#8, 0x00#8, 0x01#8, 0x80#8, 0x00#8, 0xFF#8, 0xFF#8, 0x75#8, 0x23#8], .ok 0x01#8 0x04#8 [0x0001#16, 0x8000#16, 0xFFFF#16]),
      ([0x01#8, 0x04#8, 0x02#8, 0x09#8, 0x93#8, 0xFF#8, 0x0D#8], .ok 0x01#8 0x04#8 [0x0993#16]),
      ([0x01#8, 0x84#8, 0x02#8, 0xC2#8, 0xC1#8], .exceptionResponse 0x02#8),
      ([0x01#8, 0x84#8, 0x01#8, 0x82#8, 0xC0#8], .exceptionResponse 0x01#8),
      ([0x01#8, 0x84#8, 0x03#8, 0x03#8, 0x01#8], .exceptionResponse 0x03#8),
      ([0x01#8, 0x84#8, 0x02#8, 0xAA#8, 0xBB#8, 0xAE#8, 0x23#8], .exceptionResponse 0x02#8),
      ([0x01#8, 0x84#8, 0x00#8, 0x43#8, 0x00#8], .exceptionResponse 0x00#8),
      ([0x01#8, 0xFF#8, 0xFF#8, 0x21#8, 0xB0#8], .exceptionResponse 0xFF#8),
      ([0x01#8, 0x84#8, 0x00#8, 0x00#8, 0x00#8, 0x01#8, 0x30#8, 0x14#8], .exceptionResponse 0x00#8)] : List (List Byte × DecResult)).all
      (fun v => ((ran (.decResp []) midMessage).bind (ran (.decResp v.1))).map (fun t => (t.decView, t.rAddr, t.rFunc, t.crc, t.encStatus))
        == some (some v.2, v.1[0]?, v.1[1]?, 0x1234#16, 7#3)) = true := by decide +kernel

/-- Frames that fail (95_test_vectors.md section 5.3), after a successful decode: no data of it is left. -/
theorem test_decResp_failures :
    ([([], .shortFrame),
      ([0x01#8, 0x04#8, 0x00#8, 0x00#8], .shortFrame),
      ([0x01#8, 0x04#8, 0x01#8, 0xE3#8], .shortFrame),
      ([0x01#8, 0x04#8, 0x02#8, 0x09#8], .shortFrame),
      ([0x01#8, 0x04#8, 0x01#8, 0xE3#8, 0x00#8], .malformedPayload),
      ([0x01#8, 0x04#8, 0x02#8, 0xF6#8, 0x92#8, 0x3E#8, 0xCD#8], .crcMismatch),
      ([0x01#8, 0x04#8, 0x02#8, 0x09#8, 0x92#8, 0x3F#8, 0xCD#8], .crcMismatch),
      ([0x01#8, 0x04#8, 0x02#8, 0x09#8, 0x92#8, 0xCD#8, 0x3E#8], .crcMismatch),
      ([0x01#8, 0x04#8, 0x03#8, 0x11#8, 0x22#8, 0x33#8, 0xF8#8, 0xFE#8], .malformedPayload),
      ([0x01#8, 0x04#8, 0x04#8, 0x09#8, 0x92#8, 0xDE#8, 0xCC#8], .malformedPayload),
      ([0x01#8, 0x04#8, 0x02#8, 0x09#8, 0x92#8, 0x00#8, 0x00#8, 0xD1#8, 0xF5#8], .malformedPayload),
      ([0x01#8, 0x04#8, 0x02#8, 0x09#8, 0x92#8, 0x3E#8, 0xCD#8, 0x00#8], .malformedPayload),
      ([0x01#8, 0x04#8, 0x81#8, 0x19#8, 0x00#8, 0x01#8, 0xC8#8, 0x31#8], .malformedPayload),
      ([0x01#8, 0x04#8, 0x03#8, 0x00#8, 0x00#8, 0x01#8, 0x31#8, 0x8E#8], .malformedPayload),
      ([0x01#8, 0x84#8, 0x02#8, 0xC2#8, 0xC0#8], .crcMismatch),
      ([0x01#8, 0x04#8, 0x09#8, 0x09#8, 0x92#8, 0x3E#8, 0xCD#8], .crcMismatch),
      ([0x01#8, 0x04#8, 0x02#8, 0x09#8, 0x92#8, 0x3E#8, 0xCD#8, 0x01#8, 0x04#8, 0x02#8, 0x09#8, 0x92#8, 0x3E#8, 0xCD#8], .crcMismatch),
      ([0x01#8, 0x04#8, 0x02#8, 0x09#8, 0x92#8, 0x3E#8], .crcMismatch),
      ([0x01#8, 0x04#8, 0x02#8, 0x09#8, 0x92#8], .crcMismatch)] : List (List Byte × DecResult)).all
      (fun v => ((ran (.decResp [0x01#8, 0x04#8, 0x02#8, 0x09#8, 0x92#8, 0x3E#8, 0xCD#8]) State.reset).bind (ran (.decResp v.1))).map
          (fun t => (t.decView, t.rAddr, t.rFunc, t.exc, t.regCount, t.reg.toList.all Option.isNone))
        == some (some v.2, none, none, none, none, true)) = true := by decide +kernel

set_option maxRecDepth 8000 in
/-- V-D15: the longest frame that decodes carries 127 words in 259 bytes. -/
theorem test_decResp_longest :
    (match decodeResponse ([0x01#8, 0x04#8, 0xFE#8] ++ wordsToBytes (List.replicate 127 0xABCD#16) ++ [0x33#8, 0x94#8]) with
      | .ok addr func regs => addr == 0x01#8 && func == 0x04#8 && regs.length == 127 && regs.all (· == 0xABCD#16)
      | _ => false) = true := by decide +kernel

/-- V-D32: 261 bytes are refused. -/
theorem test_decResp_over_capacity :
    (match execDecResp (List.replicate 261 0#8) State.reset with
      | .refused (.rxOverCapacity 261) => true
      | _ => false) = true := by decide +kernel

/-- V-D1 as a frame: the entries past the words hold no value. -/
theorem test_rspData_is_decoded :
    (ran (.rspData 0x01#8 0x04#7 0x02#8 [0x09#8, 0x92#8] 0xCD3E#16) State.reset).map
        (fun t => (t.decStatus, t.rAddr, t.rFunc, t.exc, t.regCount, t.reg[0], t.reg[1], t.reg[126]))
      = some (0#3, some 0x01#8, some 0x04#8, none, some 1#7, some 0x0992#16, none, none) := by decide +kernel

/-- V-D12 (CRC bytes swapped) and V-D14 (byte count 4, payload length 2) as frames. -/
theorem test_rspData_fails :
    (ran (.rspData 0x01#8 0x04#7 0x02#8 [0x09#8, 0x92#8] 0x3ECD#16) State.reset).map State.decStatus = some 3#3
    ∧ (ran (.rspData 0x01#8 0x04#7 0x04#8 [0x09#8, 0x92#8] 0xCCDE#16) State.reset).map State.decStatus = some 5#3 := by
  decide +kernel

/-- V-D4 and V-D21 as frames. -/
theorem test_rspExc_is_decoded :
    (ran (.rspExc 0x01#8 0x04#7 0x02#8 0xC1C2#16) State.reset).map (fun t => (t.decStatus, t.rAddr, t.rFunc, t.exc, t.regCount))
      = some (4#3, some 0x01#8, some 0x84#8, some 0x02#8, none)
    ∧ (ran (.rspExc 0x01#8 0x04#7 0x02#8 0xC0C2#16) State.reset).map (fun t => (t.decStatus, t.exc)) = some (3#3, none) := by
  decide +kernel

/-! ### Steps and reset -/

/-- The reset event between two operations (rule R175), and the end of a run (rule R186). -/
theorem test_step_reset_and_end :
    stepped { midMessage with encStatus := 1#3, decStatus := 2#3, rAddr := some 1#8, pending := [.reset] } = some State.reset
    ∧ (match step State.reset with | .fault .endOfRun => true | _ => false) = true := by decide +kernel

/-! ### Text and environment -/

/-- Lines of rule R62 that are none, blank, or too wide. -/
theorem test_text_errors :
    readText ['C', 'R', 'C', '.', 'U', 'P', 'D', 'A', 'T', 'E', ' ', '2', '5', '6'] = .error .operandTooWide
    ∧ readText ['D', 'E', 'C', '.', 'R', 'E', 'S', 'P', ' ', '0', '1', ' ', '4'] = .error .badOperands
    ∧ readText ['N', 'O', 'P'] = .error .unknownMnemonic
    ∧ readText [' ', ';', 'x'] = .ok none
    ∧ readText ['E', 'N', 'C', '.', 'R', 'E', 'A', 'D', ' ', '1', ',', '4', ',', '6', '5', '5', '3', '6', ',', '1']
      = .ok (some (.call 1 4 65536 1)) := by decide +kernel

/-- Vectors V-E1 to V-E8 and V-E12 to V-E15. -/
theorem test_register_decoder_vectors :
    decodeQuantity false .pv1Voltage [2450#16] = some 245
    ∧ combine32 0x0001#16 0x0002#16 = 65538#32
    ∧ rawInteger (registerMap .batteryPower) [0xFFFF#16, 0xFFFE#16] = some (-2)
    ∧ decodeQuantity false .batteryPower [0x0000#16, 0x0384#16] = some 900
    ∧ decodeQuantity false .batteryPower [0xFFFF#16, 0xFC1C#16] = some (-996)
    ∧ decodeQuantity false .batteryPower [0xFFFF#16, 0xFC18#16] = some (-1000)
    ∧ rawInteger (registerMap .batteryPower) [0x8000#16, 0x0000#16] = some (-2147483648)
    ∧ rawInteger (registerMap .batteryPower) [0x7FFF#16, 0xFFFF#16] = some 2147483647
    ∧ decodeQuantity false .acTotalPower [1234#16] = some 12340
    ∧ decodeQuantity false .gridImportedEnergy [0x0001#16, 0x86A0#16] = some 100
    ∧ decodeQuantity false .batterySoc [87#16] = some 87
    ∧ decodeQuantity false .temperature [0xFFF6#16] = some (65526 / 10) := by decide +kernel

/-- Vectors V-E9 to V-E11 and V-E16, and the empty array of rule R143. -/
theorem test_status_and_lengths :
    inverterStatusText (inverterStatus 2) = "Normal" ∧ inverterStatusText (inverterStatus 99) = "Unknown"
    ∧ ([0, 1, 3, 4, 5].map fun n => inverterStatusText (inverterStatus n))
      = ["Standby", "Checking", "Fault", "Permanent Fault", "Unknown"]
    ∧ ([1, 2, 125].map expectedDataLength) = [7, 9, 255] ∧ exceptionLength = 5
    ∧ decodeQuantity true .pv1Voltage [] = some 0 ∧ decodeQuantity false .pv1Voltage [] = none := by decide +kernel

/-- V-E17 with the length-driven check: four chunks, one buffer, before any timer has run. -/
theorem test_assembler_chunks :
    (assemblerRun AssemblerConfig.default AssemblerState.initial
      [.write 1, .chunk 0 [0x01#8], .chunk 0 [0x04#8, 0x02#8, 0x09#8], .chunk 0 [0x92#8, 0x3E#8], .chunk 0 [0xCD#8]]).2
      = [.started 0, .nothing, .nothing, .nothing,
          .complete [0x01#8, 0x04#8, 0x02#8, 0x09#8, 0x92#8, 0x3E#8, 0xCD#8]] := by decide +kernel

/-- V-E18 and rules R122 and R123, with a deadline of two time units: one timeout, and what comes late is discarded. -/
theorem test_assembler_timeout :
    (assemblerRun { quietWindow := 1, deadline := 2, lengthDriven := false } AssemblerState.initial
      [.write 1, .write 1, .tick, .tick, .chunk 0 [0x01#8], .write 1, .chunk 0 [0x01#8]]).2
      = [.started 0, .rejected, .nothing, .timedOut, .discarded, .started 1, .discarded] := by decide +kernel

/-- Rule R125: a truncated buffer of known length is not completed by the quiet window, and is in the compatibility mode; a caller's timeout (rule R124). -/
theorem test_assembler_modes :
    (assemblerRun { quietWindow := 1, deadline := 9, lengthDriven := true } AssemblerState.initial
      [.write 1, .chunk 0 [0x01#8, 0x04#8, 0x02#8], .tick, .chunk 0 [0x09#8, 0x92#8, 0x3E#8, 0xCD#8]]).2
      = [.started 0, .nothing, .nothing, .complete [0x01#8, 0x04#8, 0x02#8, 0x09#8, 0x92#8, 0x3E#8, 0xCD#8]]
    ∧ (assemblerRun { quietWindow := 1, deadline := 9, lengthDriven := false } AssemblerState.initial
      [.write 1, .chunk 0 [0x01#8, 0x04#8, 0x02#8], .tick]).2 = [.started 0, .nothing, .complete [0x01#8, 0x04#8, 0x02#8]]
    ∧ (assemblerRun AssemblerConfig.default AssemblerState.initial [.write 1, .callerTimeout, .chunk 0 [0x01#8]]).2
      = [.started 0, .timedOut, .discarded] := by decide +kernel

/-- The units of rule R133. -/
theorem test_units :
    (registerMap .pv1Voltage).unit = some .volt ∧ (registerMap .acTotalPower).unit = some .watt
    ∧ (registerMap .gridImportedEnergy).unit = some .kilowattHour ∧ (registerMap .batterySoc).unit = none := by decide

/-- An engine for slave address 1, no retries, the source's timers. -/
def engineConfig : EngineConfig := EngineConfig.withDefaultTimers 1#8 0 0 false

/-- A live engine in which nothing has happened. -/
def liveEngine : Engine := { Engine.initial with connection := .live }

/-- A device that answers one frame with one response, in one chunk, and every other frame with silence. -/
def answering (request response : List Byte) : Link :=
  fun generation _ frame => some (if frame = request then [.chunk generation response] else [])

/-- The request of V-N1, for PV1 voltage. -/
def pv1Request : List Byte := [0x01#8, 0x04#8, 0x81#8, 0x19#8, 0x00#8, 0x01#8, 0xC8#8, 0x31#8]

/-- Program P2 and V-E1: one full read of PV1 voltage in a session. -/
theorem test_read_pv1_voltage :
    (withSession true (readQuantity engineConfig (answering pv1Request [0x01#8, 0x04#8, 0x02#8, 0x09#8, 0x92#8, 0x3E#8, 0xCD#8]) .pv1Voltage)
        Engine.initial).map
      (fun r => (match r.2 with | .ok x => (x.words, x.value) | .error _ => ([], none), r.1.block.crc, r.1.block.regCount, r.1.connection))
      = some (([0x0992#16], some 245), 0xFFFF#16, some 1#7, .notOpen) := by decide +kernel

/-- Status register value 2 is `{code:2, text:"Normal"}` (rule R132), as the group's snapshot. -/
theorem test_read_status :
    (readStatus engineConfig (answering [0x01#8, 0x04#8, 0x81#8, 0x47#8, 0x00#8, 0x01#8, 0xA9#8, 0xE3#8]
        [0x01#8, 0x04#8, 0x02#8, 0x00#8, 0x02#8, 0x38#8, 0xF1#8]) liveEngine).map
      (fun r => match r.2 with | .ok x => x.status | .error _ => none)
      = some (some { code := 2, text := "Normal" }) := by decide +kernel

/-- Rules R135 and R138: a first exchange that times out at 3, a retry delay of 2, and an inter-command delay of 5: the retry is written at 8. -/
theorem test_retry_and_pacing :
    (readQuantity ⟨1#8, { quietWindow := 1, deadline := 3, lengthDriven := true }, 5, 1, 2, false⟩
        (fun generation now _ => some (if now < 8 then [] else [.chunk generation [0x01#8, 0x04#8, 0x02#8, 0x09#8, 0x92#8, 0x3E#8, 0xCD#8]]))
        .pv1Voltage liveEngine).map
      (fun r => (match r.2 with | .ok x => x.value | .error _ => none, r.1.now, r.1.assembler.nextGeneration))
      = some (some 245, 8, 2) := by decide +kernel

/-- Rule R137: one failing read fails its group, and the other groups are still read; a lost connection surfaces once as `ConnectionError` (rule R142). -/
theorem test_failures_of_a_cycle :
    (readCycle engineConfig (fun _ _ _ => none) liveEngine).map
      (fun r => (match r.2.status with | .error .connectionError => true | _ => false,
        match r.2.battery with | .error .notConnected => true | _ => false, r.2.succeeds, r.1.connection))
      = some (true, true, false, .ended) := by decide +kernel

/-- Rules R138 and R140: a lost connection is `ConnectionError` without retries, and `NotConnected` after two of them, two retry delays later. -/
theorem test_retry_after_a_lost_connection :
    ([0, 2].map fun n => (readQuantity ⟨1#8, AssemblerConfig.default, 5, n, 7, false⟩ (fun _ _ _ => none) .status liveEngine).map
      fun r => (match r.2 with | .error k => some k | .ok _ => none, r.1.now))
      = [some (some .connectionError, 0), some (some .notConnected, 14)] := by decide +kernel

/-- The session of rule R140: fail fast, terminal failure, a second close. -/
theorem test_session :
    (exchange engineConfig (fun _ _ _ => none) (requestFor 1#8 .status) Engine.initial).map
      (fun r => match r.2 with | .error .notConnected => r.1 == Engine.initial | _ => false) = some true
    ∧ (Connection.connect false .notOpen) = (.ended, some .connectionError)
    ∧ (Connection.connect true .ended) = (.ended, some .connectionError)
    ∧ Connection.close (Connection.close .live) = Connection.close .live := by decide +kernel

/-! ### Witnesses: for every statement with hypotheses, a state and operands that meet them, for each clause at a boundary -/

/-- Ports with a select code and nothing else. -/
def portsOf (op : BitVec 2) : Ports := { idlePorts with op := op }

/-- The frame of V-D1, one word. -/
def oneWordFrame : List Byte := [0x01#8, 0x04#8, 0x02#8, 0x09#8, 0x92#8, 0x3E#8, 0xCD#8]

/-- The shortest data response, V-D3: no words. -/
def emptyFrame : List Byte := [0x01#8, 0x04#8, 0x00#8, 0x22#8, 0xC0#8]

/-- The shortest exception response, V-D4. -/
def exceptionFrame : List Byte := [0x01#8, 0x84#8, 0x02#8, 0xC2#8, 0xC1#8]

theorem witness_OperationDecodingIsTotal :
    (portsOf 0b00#2).op = 0b00#2 ∧ (portsOf 0b01#2).op = 0b01#2 ∧ (portsOf 0b10#2).op = 0b10#2 ∧ (portsOf 0b11#2).op = 0b11#2 := by
  decide

theorem witness_DecodeEncodeRoundTrip :
    (Instr.req 0x01#8 0x03#8 0#16 10#16 0xCDC5#16).encodable = true ∧ (Instr.reqRir 0x01#8 33049#16 1#16 0x31C8#16).encodable = true
    ∧ (Instr.rspData 0x01#8 0x04#7 0x00#8 [] 0xC022#16).encodable = true ∧ (Instr.decResp []).encodable = true
    ∧ (Instr.crcMsg []).encodable = true := by decide

theorem witness_EncodeDecodeKeepsFrames :
    decode (.request [0x01#8, 0x04#8, 0x81#8, 0x19#8, 0x00#8, 0x01#8, 0xC8#8, 0x31#8])
      = .ok (.reqRir 0x01#8 33049#16 1#16 0x31C8#16)
    ∧ decode (.response oneWordFrame) = .ok (.rspData 0x01#8 0x04#7 0x02#8 [0x09#8, 0x92#8] 0xCD3E#16)
    ∧ decode (.response []) = .ok (.decResp []) := by decide +kernel

/-- Two ports for each select code that differ in every operand its row does not list. -/
theorem witness_UnlistedOperandsAreIgnored :
    (portsOf 0b00#2).op = 0b00#2 ∧ (⟨0b00#2, 1#8, 1#8, 1#8, 1#16, 1#16, [1#8]⟩ : Ports).op = 0b00#2
    ∧ (portsOf 0b01#2).crcIn = (⟨0b01#2, 0#8, 1#8, 1#8, 1#16, 1#16, [1#8]⟩ : Ports).crcIn
    ∧ (portsOf 0b10#2).slaveId = (⟨0b10#2, 1#8, 0#8, 0#8, 0#16, 0#16, [1#8]⟩ : Ports).slaveId
    ∧ (portsOf 0b10#2).func = (⟨0b10#2, 1#8, 0#8, 0#8, 0#16, 0#16, [1#8]⟩ : Ports).func
    ∧ (portsOf 0b10#2).startAddr = (⟨0b10#2, 1#8, 0#8, 0#8, 0#16, 0#16, [1#8]⟩ : Ports).startAddr
    ∧ (portsOf 0b10#2).quantity = (⟨0b10#2, 1#8, 0#8, 0#8, 0#16, 0#16, [1#8]⟩ : Ports).quantity
    ∧ (portsOf 0b11#2).rx = (⟨0b11#2, 1#8, 1#8, 1#8, 1#16, 1#16, []⟩ : Ports).rx := by decide

/-- The integers just outside and at the ends of each range: 256 and 255, 65536 and 65535, 0, 1, 247 and 248, 0, 125 and 126; and a call that is both
unpresentable and out of range, (0, 256, 0, 1), which the first clause alone covers (assumption 8). -/
theorem witness_SoftwareIntegersAreNeverTruncated :
    ¬ ((0 : Int) ≤ 256 ∧ (256 : Int) ≤ 255) ∧ ¬ ((0 : Int) ≤ 65536 ∧ (65536 : Int) ≤ 65535)
    ∧ ((0 : Int) ≤ 255 ∧ (255 : Int) ≤ 255 ∧ (0 : Int) ≤ 65535 ∧ (65535 : Int) ≤ 65535)
    ∧ ((1 : Int) ≤ 247 ∧ (247 : Int) ≤ 247 ∧ (1 : Int) ≤ 125 ∧ (125 : Int) ≤ 125)
    ∧ ¬ ((1 : Int) ≤ 248 ∧ (248 : Int) ≤ 247 ∧ (1 : Int) ≤ 1 ∧ (1 : Int) ≤ 125)
    ∧ ¬ ((1 : Int) ≤ 1 ∧ (1 : Int) ≤ 247 ∧ (1 : Int) ≤ 126 ∧ (126 : Int) ≤ 125)
    ∧ ¬ ((1 : Int) ≤ 0 ∧ (0 : Int) ≤ 247 ∧ (1 : Int) ≤ 1 ∧ (1 : Int) ≤ 125)
    ∧ ¬ ((1 : Int) ≤ 1 ∧ (1 : Int) ≤ 247 ∧ (1 : Int) ≤ 0 ∧ (0 : Int) ≤ 125)
    ∧ (¬ ((0 : Int) ≤ 256 ∧ (256 : Int) ≤ 255) ∧ ¬ ((1 : Int) ≤ 0 ∧ (0 : Int) ≤ 247)) := by decide

theorem witness_StepRunsThePresentedInstruction :
    (presenting (.operation (portsOf 0b00#2))).pending = [.present (.operation (portsOf 0b00#2))]
    ∧ decode (.operation (portsOf 0b00#2)) = .ok .crcInit := by decide +kernel

theorem witness_StepStopsOnNothingToRun :
    State.reset.pending = [] ∧ (presenting (.request [])).pending = [.present (.request [])]
    ∧ decode (.request []) = .error .notARequestFrame := by decide +kernel

theorem witness_ResetEventRestoresTheTable :
    (midMessage.presentNext .reset).pending = .reset :: [] ∧ ([] : List Byte).length ≤ (midMessage.presentNext .reset).params.rxCapacity
    ∧ (midMessage.presentNext .reset).crc ≠ 0xFFFF#16 := by decide +kernel

theorem witness_StepKeepsTheInvariant :
    (presenting (.operation (portsOf 0b10#2))).Inv ∧ ∃ t, step (presenting (.operation (portsOf 0b10#2))) = .next t :=
  ⟨⟨.inr (.inr ⟨rfl, fun _ => by simp [presenting, State.presentNext, State.reset, absentFile]⟩),
    .inr (.inr ⟨by decide, rfl, rfl, rfl, rfl, fun _ => by simp [presenting, State.presentNext, State.reset, absentFile]⟩)⟩, _, rfl⟩

theorem witness_StepTakesOneEvent : ∃ t, step (presenting (.operation (portsOf 0b00#2))) = .next t := ⟨_, rfl⟩

theorem witness_CrcStreamComputesCrc16 :
    State.reset.crc = crc16 [] ∧ (State.reset.setCrc 0xE301#16).crc = crc16 [0x01#8, 0x04#8] := by decide +kernel

/-- The shortest sequence, its first and its last byte changed. -/
theorem witness_SingleByteCorruptionIsDetected :
    [0x01#8, 0x04#8, 0x00#8] ++ [lo8 (crc16 [0x01#8, 0x04#8, 0x00#8]), hi8 (crc16 [0x01#8, 0x04#8, 0x00#8])] = emptyFrame
    ∧ 5 ≤ emptyFrame.length ∧ 0 < emptyFrame.length ∧ 4 < emptyFrame.length ∧ 0x02#8 ≠ emptyFrame[0] ∧ 0xC1#8 ≠ emptyFrame[4]
    ∧ emptyFrame.length ≤ State.reset.params.rxCapacity := by decide +kernel

theorem witness_TrailingZeroKeepsTheCrcValid : 5 ≤ emptyFrame.length ∧ decodeResponse emptyFrame ≠ .crcMismatch := by decide +kernel

theorem witness_CrcRowsChangeOnlyTheAccumulator :
    (∃ t, exec .crcInit midMessage = .next t) ∧ (∃ t, exec (.crcUpdate 0x56#8) midMessage = .next t)
    ∧ ∃ t, exec (.crcMsg [0x56#8]) midMessage = .next t := ⟨⟨_, rfl⟩, ⟨_, rfl⟩, _, rfl⟩

/-- Both ends of both ranges. -/
theorem witness_EncReadBuildsTheRequest :
    1 ≤ (1#8).toNat ∧ (1#8).toNat ≤ 247 ∧ 1 ≤ (247#8).toNat ∧ (247#8).toNat ≤ 247
    ∧ 1 ≤ (1#16).toNat ∧ (1#16).toNat ≤ 125 ∧ 1 ≤ (125#16).toNat ∧ (125#16).toNat ≤ 125 := by decide

/-- Each way to be out of range, next to the range. -/
theorem witness_EncReadRejectsOutOfRange :
    (0#8).toNat = 0 ∧ 248 ≤ (248#8).toNat ∧ (0#16).toNat = 0 ∧ 126 ≤ (126#16).toNat := by decide

theorem witness_EncReadFramesAreRecoverable :
    encodeRead 247#8 4#8 65535#16 125#16 = .ok [0xF7#8, 0x04#8, 0xFF#8, 0xFF#8, 0x00#8, 0x7D#8, 0x24#8, 0x99#8]
    ∧ encodeRead 1#8 4#8 33049#16 1#16 = .ok [0x01#8, 0x04#8, 0x81#8, 0x19#8, 0x00#8, 0x01#8, 0xC8#8, 0x31#8] := by decide +kernel

theorem witness_RequestRowsProduceTheirFrame :
    encode (.req 0x01#8 0x03#8 0#16 10#16 0xCDC5#16) = .request [0x01#8, 0x03#8, 0x00#8, 0x00#8, 0x00#8, 0x0A#8, 0xC5#8, 0xCD#8]
    ∧ (Instr.req 0x01#8 0x03#8 0#16 10#16 0xCDC5#16).wf State.reset.params = true
    ∧ encode (.reqRir 0xF7#8 0xFFFF#16 125#16 0x9924#16)
      = .request [0xF7#8, 0x04#8, 0xFF#8, 0xFF#8, 0x00#8, 0x7D#8, 0x24#8, 0x99#8]
    ∧ (Instr.reqRir 0xF7#8 0xFFFF#16 125#16 0x9924#16).wf State.reset.params = true := by decide +kernel

theorem witness_EncoderRowsChangeOnlyTheEncoder :
    returned (.encRead 248#8 4#8 0#16 1#16) = .enc .invalidParameter ∧ (∃ t, exec (.encRead 248#8 4#8 0#16 1#16) midMessage = .next t)
    ∧ ∃ t, exec (.req 1#8 3#8 0#16 10#16 0xCDC5#16) midMessage = .next t := ⟨by decide +kernel, ⟨_, rfl⟩, _, rfl⟩

/-- A length at the capacity and one above it. -/
theorem witness_DecRespAcceptsUpToCapacity :
    emptyFrame.length ≤ (withCapacity 5).params.rxCapacity ∧ (withCapacity 4).params.rxCapacity < emptyFrame.length
    ∧ encode (.rspData 0x01#8 0x04#7 0x00#8 [] 0xC022#16) = .response emptyFrame
    ∧ encode (.rspExc 0x01#8 0x04#7 0x02#8 0xC1C2#16) = .response exceptionFrame
    ∧ decodeResponse emptyFrame = .ok 0x01#8 0x04#8 [] := by decide +kernel

/-- One frame for each row of the table (V-D7, V-D21, V-D4, V-D9 and V-D3), the first a byte too short for the others. -/
theorem witness_DecRespFollowsTheDecisionTable :
    ([0x01#8, 0x04#8, 0x00#8, 0x00#8] : List Byte).length < 5
    ∧ crc16 [0x01#8, 0x84#8, 0x02#8] ≠ le16 0xC2#8 0xC0#8
    ∧ (crc16 [0x01#8, 0x84#8, 0x02#8] = le16 0xC2#8 0xC1#8 ∧ (0x84#8).getLsbD 7 = true)
    ∧ (crc16 [0x01#8, 0x04#8, 0x01#8] = le16 0xE3#8 0x00#8 ∧ (0x04#8).getLsbD 7 ≠ true ∧ ¬ ((0x01#8).toNat = 5 - 5 ∧ (0x01#8).toNat % 2 = 0))
    ∧ (crc16 [0x01#8, 0x04#8, 0x00#8] = le16 0x22#8 0xC0#8 ∧ (0x00#8).toNat = 5 - 5 ∧ (0x00#8).toNat % 2 = 0)
    ∧ emptyFrame.length ≤ State.reset.params.rxCapacity := by decide +kernel

/-- A decode that leaves each status. -/
theorem witness_DecRespLatchesItsRegisters :
    (∃ t, exec (.decResp oneWordFrame) State.reset = .next t)
    ∧ ([oneWordFrame, exceptionFrame, [0x01#8], [0x01#8, 0x84#8, 0x02#8, 0xC2#8, 0xC0#8], [0x01#8, 0x04#8, 0x01#8, 0xE3#8, 0x00#8]].map
        fun rx => (ran (.decResp rx) State.reset).map State.decStatus)
      = [some 0#3, some 4#3, some 2#3, some 3#3, some 5#3] := ⟨⟨_, rfl⟩, by decide +kernel⟩

/-- No words, and 127 of them, on instances that just hold the frame. -/
theorem witness_DataResponseRoundTrip :
    (0x7F#8).getLsbD 7 = false ∧ ([] : List Word).length ≤ 127 ∧ 5 + 2 * ([] : List Word).length ≤ (withCapacity 5).params.rxCapacity
    ∧ (List.replicate 127 0xABCD#16).length ≤ 127
    ∧ 5 + 2 * (List.replicate 127 0xABCD#16).length ≤ (withCapacity 259).params.rxCapacity := by decide +kernel

theorem witness_ExceptionResponsesOfEveryLength :
    (0x80#8).getLsbD 7 = true ∧ 5 + ([] : List Byte).length ≤ (withCapacity 5).params.rxCapacity
    ∧ 5 + (List.replicate 255 0#8).length ≤ State.reset.params.rxCapacity := by decide +kernel

theorem witness_EmptyPayloadIsOk : (0x04#8).getLsbD 7 = false ∧ 5 ≤ (withCapacity 5).params.rxCapacity := by decide

/-- Byte counts 1 and 255. -/
theorem witness_OddByteCountIsMalformed :
    (0x04#8).getLsbD 7 = false ∧ ([0#8] : List Byte).length = (1#8).toNat ∧ (1#8).toNat % 2 = 1
    ∧ 5 + ([0#8] : List Byte).length ≤ (withCapacity 6).params.rxCapacity
    ∧ (List.replicate 255 0#8).length = (255#8).toNat ∧ (255#8).toNat % 2 = 1
    ∧ 5 + (List.replicate 255 0#8).length ≤ State.reset.params.rxCapacity := by decide +kernel

/-- V-D3 at the smallest capacity; a wrong CRC; a right one with a byte count that is not the payload's length, or odd (V-D9). -/
theorem witness_DataResponseRowIsDecoded :
    5 + ([] : List Byte).length ≤ (withCapacity 5).params.rxCapacity
    ∧ 0xC023#16 ≠ crc16 ([0x01#8, BitVec.ofBool false ++ 0x04#7, 0x00#8] ++ [])
    ∧ (0x00E3#16 = crc16 ([0x01#8, BitVec.ofBool false ++ 0x04#7, 0x01#8] ++ []) ∧ ([] : List Byte).length ≠ (0x01#8).toNat)
    ∧ (0xC022#16 = crc16 ([0x01#8, BitVec.ofBool false ++ 0x04#7, 0x00#8] ++ []) ∧ ([] : List Byte).length = (0x00#8).toNat
      ∧ (0x00#8).toNat % 2 = 0) := by decide +kernel

theorem witness_ExceptionRowIsDecoded :
    5 ≤ (withCapacity 5).params.rxCapacity ∧ 0xC1C2#16 = crc16 [0x01#8, BitVec.ofBool true ++ 0x04#7, 0x02#8]
    ∧ 0xC0C2#16 ≠ crc16 [0x01#8, BitVec.ofBool true ++ 0x04#7, 0x02#8] := by decide +kernel

theorem witness_RequestsNeverDecodeToOk :
    encodeRead 1#8 4#8 33049#16 1#16 = .ok [0x01#8, 0x04#8, 0x81#8, 0x19#8, 0x00#8, 0x01#8, 0xC8#8, 0x31#8]
    ∧ encodeRead 1#8 0x84#8 0#16 1#16 = .ok [0x01#8, 0x84#8, 0x00#8, 0x00#8, 0x00#8, 0x01#8, 0x30#8, 0x14#8] := by decide +kernel

theorem witness_DecodedFramesHaveTheirLength :
    decodeResponse oneWordFrame = .ok 0x01#8 0x04#8 [0x0992#16] ∧ decodeResponse emptyFrame = .ok 0x01#8 0x04#8 [] := by decide +kernel

theorem witness_DecoderRowsChangeOnlyTheDecoder :
    returned (.decResp [0x01#8]) = .dec .shortFrame ∧ (∃ t, exec (.decResp [0x01#8]) midMessage = .next t)
    ∧ (∃ t, exec (.rspData 0x01#8 0x04#7 0x02#8 [0x09#8, 0x92#8] 0xCD3E#16) midMessage = .next t)
    ∧ ∃ t, exec (.rspExc 0x01#8 0x04#7 0x02#8 0xC1C2#16) midMessage = .next t :=
  ⟨by decide +kernel, ⟨_, rfl⟩, ⟨_, rfl⟩, _, rfl⟩

theorem witness_TheTwoViewsAgree :
    (returned (.encRead 248#8 4#8 0#16 1#16) = .enc .invalidParameter ∧ ∃ t, exec (.encRead 248#8 4#8 0#16 1#16) State.reset = .next t)
    ∧ (returned (.decResp oneWordFrame) = .dec (.ok 0x01#8 0x04#8 [0x0992#16]) ∧ ∃ t, exec (.decResp oneWordFrame) State.reset = .next t)
    ∧ (returned .crcInit = .nothing ∧ ∃ t, exec .crcInit State.reset = .next t) :=
  ⟨⟨by decide +kernel, _, rfl⟩, ⟨by decide +kernel, _, rfl⟩, rfl, _, rfl⟩

/-- Two different states, an instruction of each kind, and the two ways into the last clause. -/
theorem witness_ResultsDependOnlyOnOperands :
    midMessage ≠ State.reset ∧ (∃ t, exec (.decResp oneWordFrame) midMessage = .next t)
    ∧ (∃ t, exec (.decResp oneWordFrame) State.reset = .next t)
    ∧ (returned (.encRead 0#8 4#8 0#16 1#16) = .enc .invalidParameter ∧ (∃ t, exec (.encRead 0#8 4#8 0#16 1#16) midMessage = .next t)
      ∧ ∃ t, exec (.encRead 0#8 4#8 0#16 1#16) State.reset = .next t)
    ∧ (returned (.decResp oneWordFrame) = .dec (.ok 0x01#8 0x04#8 [0x0992#16]))
    ∧ (returned (.crcUpdate 1#8) = .nothing ∧ midMessage.crc = (midMessage.presentNext .reset).crc)
    ∧ (returned .crcInit = .nothing ∧ ∀ b, Instr.crcInit ≠ .crcUpdate b)
    ∧ ∃ t, exec (.crcUpdate 1#8) midMessage = .next t :=
  ⟨by decide +kernel, ⟨_, rfl⟩, ⟨_, rfl⟩, ⟨by decide +kernel, ⟨_, rfl⟩, _, rfl⟩, by decide +kernel, ⟨rfl, rfl⟩, ⟨rfl, fun _ h => Instr.noConfusion h⟩, _, rfl⟩

theorem witness_OperationsAreIdempotent :
    (∀ b, Instr.decResp oneWordFrame ≠ .crcUpdate b) ∧ ∃ t, exec (.decResp oneWordFrame) midMessage = .next t :=
  ⟨fun _ h => Instr.noConfusion h, _, rfl⟩

theorem witness_OperationsNeverLeaveAReservedStatus :
    (returned (.encRead 0#8 4#8 0#16 1#16) = .enc .invalidParameter ∧ ∃ t, exec (.encRead 0#8 4#8 0#16 1#16) State.reset = .next t)
    ∧ (returned (.decResp []) = .dec .shortFrame ∧ ∃ t, exec (.decResp []) State.reset = .next t) :=
  ⟨⟨by decide +kernel, _, rfl⟩, by decide +kernel, _, rfl⟩

/-- V-E17's chunks, the gap one below the window and the sum one below the deadline. -/
theorem witness_ChunkBoundariesDoNotMatter :
    (AssemblerPhase.awaiting 0 1 [] none 0 = AssemblerPhase.awaiting 0 1 [] none 0)
    ∧ ([(0, [0x01#8]), (2, [0x04#8, 0x02#8])] : List (Nat × List Byte)) ≠ []
    ∧ (∀ d ∈ ([(0, [0x01#8]), (2, [0x04#8, 0x02#8])] : List (Nat × List Byte)), d.1 < 3 ∧ d.2 ≠ [])
    ∧ (([(0, [0x01#8]), (2, [0x04#8, 0x02#8])] : List (Nat × List Byte)).map Prod.fst).sum + 3 < 6 := by decide

/-- The first phase after a write, an Idle assembler, a deadline of one time unit, and a live engine with a request at either end of the ranges. -/
theorem witness_StaleAndMissingBytesChangeNothing :
    (assemblerStep AssemblerConfig.default AssemblerState.initial (.write 1)).1.phase = .awaiting 0 1 [] none 0 ∧ 1 ≠ 0
    ∧ AssemblerState.initial.phase = .idle ∧ 0 < ({ quietWindow := 1, deadline := 1, lengthDriven := true } : AssemblerConfig).deadline
    ∧ liveEngine.connection = .live ∧ liveEngine.assembler.phase = .idle
    ∧ slaveInRange 1#8 = true ∧ slaveInRange 247#8 = true ∧ quantityInRange 1#16 = true ∧ quantityInRange 125#16 = true := by
  decide +kernel

/-- A known length one byte short, a length not yet known with the window and the deadline at their boundaries, and a chunk that reaches the length. -/
theorem witness_KnownLengthIsAwaited :
    AssemblerConfig.default.lengthDriven = true
    ∧ AssemblerPhase.awaiting 0 1 [0x01#8] (some 199) 1998 = .awaiting 0 1 [0x01#8] (some 199) 1998
    ∧ expectedLength 1 [0x01#8, 0x04#8, 0x02#8, 0x09#8, 0x92#8, 0x3E#8] = some 7
    ∧ (expectedLength 1 [0x01#8] = none ∧ AssemblerConfig.default.quietWindow ≤ 199 + 1 ∧ 1998 + 1 < AssemblerConfig.default.deadline)
    ∧ expectedLength 1 ([0x01#8, 0x84#8, 0x02#8, 0xC2#8] ++ [0xC1#8]) = some 5 ∧ [0xC1#8] ≠ []
    ∧ 5 ≤ ([0x01#8, 0x84#8, 0x02#8, 0xC2#8] ++ [0xC1#8]).length := by decide

/-- One word and two words, on an instance that just holds the frame, at both ends of the slave addresses. -/
theorem witness_ReadsRunTheWholeFlow :
    liveEngine.connection = .live ∧ liveEngine.assembler.phase = .idle ∧ slaveInRange engineConfig.slaveId = true
    ∧ slaveInRange ({ engineConfig with slaveId := 247#8 } : EngineConfig).slaveId = true
    ∧ engineConfig.assembler.lengthDriven = true ∧ (0x7F#8).getLsbD 7 = false
    ∧ [0x0992#16].length = (registerMap .pv1Voltage).span ∧ [0xFFFF#16, 0xFC18#16].length = (registerMap .batteryPower).span
    ∧ 5 + 2 * [0xFFFF#16, 0xFC18#16].length ≤ ({ liveEngine with block := withCapacity 9 } : Engine).block.params.rxCapacity := by
  decide +kernel

/-- Two links that differ at the time of the previous completion and agree from the end of the delay on. -/
theorem witness_ExchangesKeepTheDelay :
    let e : Engine := { liveEngine with now := 1, completedAt := some 0 }
    let late : Link := fun _ now _ => if now < 200 then some [.transportError] else some []
    let never : Link := fun _ _ _ => some []
    (∀ generation now frame, (∀ c, e.completedAt = some c → c + engineConfig.commandDelay ≤ now) →
      late generation now frame = never generation now frame)
    ∧ late 0 1 [] ≠ never 0 1 [] :=
  ⟨fun _ now _ h => if_neg (Nat.not_lt.2 (Nat.le_trans (Nat.le_refl 200) (h 0 rfl))), by decide⟩

/-- A session that ends, one that does not open, an exchange on no connection, and each kind of transport failure on a live one. -/
theorem witness_SessionsAreReleased :
    (∃ e', withSession true (readQuantities engineConfig (fun _ _ _ => none) []) Engine.initial = some (e', .ok []))
    ∧ Engine.initial.connection = .notOpen ∧ Engine.initial.connection ≠ .live
    ∧ liveEngine.connection = .live ∧ liveEngine.assembler.phase = .idle
    ∧ slaveInRange (requestFor 1#8 .status).slaveId = true ∧ quantityInRange (requestFor 1#8 .status).quantity = true
    ∧ (∀ generation now frame, (fun _ _ _ => none : Link) generation now frame = none)
    ∧ (∀ generation now frame, (fun _ _ _ => some [.transportError] : Link) generation now frame = some [.transportError]) :=
  ⟨⟨_, rfl⟩, rfl, by decide, rfl, rfl, by decide, by decide, fun _ _ _ => rfl, fun _ _ _ => rfl⟩

theorem witness_TheRegisterMapIsTheCycle :
    1 ≤ (1#8).toNat ∧ (1#8).toNat ≤ 247 ∧ 1 ≤ (247#8).toNat ∧ (247#8).toNat ≤ 247 := by decide

end Sys2Proof.Tests
end

section
/-! PROOFS. `ENC.READ` (41_encode.md rules R85 and R86): the range checks negated, the layout of a request frame in `TX`, and what the
operation does inside and outside its accepted domain (30_encoding.md rules R48 and R57). -/

namespace Sys2Proof.Machine

/-- The slave addresses out of range (30_encoding.md rule R57). -/
theorem slaveInRange_eq_false_iff (a : Byte) : slaveInRange a = false ↔ a.toNat = 0 ∨ 248 ≤ a.toNat := by
  rw [← Bool.not_eq_true, slaveInRange_iff]
  omega

/-- The quantities out of range (30_encoding.md rule R57). -/
theorem quantityInRange_eq_false_iff (q : Word) : quantityInRange q = false ↔ q.toNat = 0 ∨ 126 ≤ q.toNat := by
  rw [← Bool.not_eq_true, quantityInRange_iff]
  omega

/-- `encodeRead` outside its accepted domain (41_encode.md rule R85). -/
theorem encodeRead_invalid (addr func : Byte) (startAddr quantity : Word)
    (h : slaveInRange addr = false ∨ quantityInRange quantity = false) :
    encodeRead addr func startAddr quantity = .invalidParameter := by
  obtain ⟨ha, hq, -⟩ | ⟨-, hr⟩ := encodeRead_cases addr func startAddr quantity
  · simp [ha, hq] at h
  · exact hr

/-- `ENC.READ` latches the result of `encodeRead` (41_encode.md rule R86). -/
theorem exec_encRead (slaveId func : Byte) (startAddr quantity : Word) (s : State) :
    exec (.encRead slaveId func startAddr quantity) s = .next (s.latchEnc (encodeRead slaveId func startAddr quantity)) :=
  exec_of_returned_enc rfl s

/-- The register file that holds a whole request frame, byte by byte (30_encoding.md rule R48): no entry is left without a value. -/
theorem fileOf_requestFrame (addr func : Byte) (startAddr quantity crc : Word) :
    fileOf 8 (requestBody addr func startAddr quantity ++ crcTail crc) =
      #v[some addr, some func, some (hi8 startAddr), some (lo8 startAddr), some (hi8 quantity), some (lo8 quantity),
        some (lo8 crc), some (hi8 crc)] :=
  rfl

/-- Settles O23: the operands are in the accepted domain, so `encodeRead` answers the frame, which fills `TX` exactly. -/
theorem encReadBuildsTheRequest : Obligations.EncReadBuildsTheRequest := by
  unfold Obligations.EncReadBuildsTheRequest
  intro slaveId func startAddr quantity s ha ha' hq hq' body
  have hs : slaveInRange slaveId = true := (slaveInRange_iff slaveId).2 ⟨ha, ha'⟩
  have hn : quantityInRange quantity = true := (quantityInRange_iff quantity).2 ⟨hq, hq'⟩
  rw [exec_encRead, encodeRead_ok slaveId func startAddr quantity hs hn, latchEnc_ok, State.writeFrame, fileOf_requestFrame]
  rfl

/-- Settles O24: one of the two range checks fails, so `encodeRead` answers `InvalidParameter`, which leaves no value in `TX`. -/
theorem encReadRejectsOutOfRange : Obligations.EncReadRejectsOutOfRange := by
  unfold Obligations.EncReadRejectsOutOfRange
  intro slaveId func startAddr quantity s h
  have hout : slaveInRange slaveId = false ∨ quantityInRange quantity = false := by
    rw [slaveInRange_eq_false_iff, quantityInRange_eq_false_iff]
    exact or_assoc.2 h
  rw [exec_encRead, encodeRead_invalid slaveId func startAddr quantity hout, latchEnc_invalid]
  rfl

end Sys2Proof.Machine
end

section
/-! PROOFS. The CRC unit (40_crc.md rules R70 to R72) and the corruption law (rule R77): `crc_shift` loses no information, so folding the same
bytes keeps two accumulators apart; the CRC check is that the whole sequence leaves 0, and one changed byte leaves something else. -/

namespace Sys2Proof.Machine

/-- `CRC.INIT` sets the accumulator to its seed (40_crc.md rule R70). -/
theorem exec_crcInit (s : State) : exec .crcInit s = .next (s.setCrc Config.crcInit) := rfl

/-- `CRC.UPDATE` folds its byte into the accumulator (40_crc.md rule R71). -/
theorem exec_crcUpdate (b : Byte) (s : State) : exec (.crcUpdate b) s = .next (s.setCrc (crcByte s.crc b)) := rfl

/-- `DEC.RESP` decodes its bytes (42_decode.md rule R97). -/
theorem exec_decResp (rx : List Byte) (s : State) : exec (.decResp rx) s = s.decodeInto rx := rfl

/-- Settles O14: the seed is 0xFFFF. -/
theorem crcInitWritesTheSeed : Obligations.CrcInitWritesTheSeed := by
  unfold Obligations.CrcInitWritesTheSeed
  exact exec_crcInit

/-- Settles O15: the statement's `shift` is `crc_shift`, and `crc_byte` runs it eight times. -/
theorem crcUpdateFoldsTheByte : Obligations.CrcUpdateFoldsTheByte := by
  unfold Obligations.CrcUpdateFoldsTheByte
  intro shift b s
  have hshift : shift = crcShift := rfl
  rw [hshift]
  exact exec_crcUpdate b s

@[simp] theorem crcShift_zero : crcShift 0#16 = 0#16 := rfl

@[simp] theorem crcShifts_zero (n : Nat) : crcShifts n 0#16 = 0#16 := by
  induction n with
  | zero => rfl
  | succ n ih => rw [crcShifts, crcShift_zero, ih]

/-- The bit a shift moves out comes back as bit 15, since `POLY` has bit 15 set and zero enters at the top. -/
theorem crcShift_bit15 (c : Word) : (crcShift c).getLsbD 15 = c.getLsbD 0 := by
  unfold crcShift
  cases c.getLsbD 0 <;> simp [Config.poly]

theorem crcShift_eq_zero_iff (c : Word) : crcShift c = 0#16 ↔ c = 0#16 := by
  refine ⟨fun h => ?_, fun h => by rw [h, crcShift_zero]⟩
  have hbit : c.getLsbD 0 = false := by rw [← crcShift_bit15, h]; rfl
  rw [crcShift, hbit, if_neg Bool.false_ne_true] at h
  have hhalf : (c >>> 1).toNat = 0 := congrArg BitVec.toNat h
  have heven : c.toNat % 2 ≠ 1 := by simpa [BitVec.getLsbD] using hbit
  rw [BitVec.toNat_ushiftRight, Nat.shiftRight_eq_div_pow] at hhalf
  exact BitVec.eq_of_toNat_eq (by rw [BitVec.toNat_zero]; omega)

/-- `crc_shift` is linear and only 0 goes to 0. -/
theorem crcShift_injective : Function.Injective crcShift := fun x y h => by
  rw [← BitVec.xor_eq_zero_iff, ← crcShift_xor, crcShift_eq_zero_iff] at h
  exact BitVec.xor_eq_zero_iff.1 h

theorem crcShifts_injective (n : Nat) : Function.Injective (crcShifts n) := by
  induction n with
  | zero => exact fun _ _ h => h
  | succ n ih => exact ih.comp crcShift_injective

theorem crcByte_left_inj {c c' : Word} (b : Byte) : crcByte c b = crcByte c' b ↔ c = c' :=
  (crcShifts_injective 8).eq_iff.trans (BitVec.xor_left_inj _)

theorem crcByte_right_inj (c : Word) {b b' : Byte} : crcByte c b = crcByte c b' ↔ b = b' := by
  refine ⟨fun h => ?_, congrArg (crcByte c)⟩
  have hwide : b.setWidth 16 = b'.setWidth 16 := (BitVec.xor_right_inj c).1 (crcShifts_injective 8 h)
  simpa using congrArg (BitVec.setWidth 8) hwide

theorem crcFrom_left_inj {c c' : Word} (s : List Byte) : crcFrom c s = crcFrom c' s ↔ c = c' := by
  induction s generalizing c c' with
  | nil => rfl
  | cons b s ih => rw [crcFrom_cons, crcFrom_cons, ih, crcByte_left_inj]

/-- One changed byte changes the CRC: it tells the accumulators apart, and the bytes after it keep them apart. -/
theorem crcFrom_set_inj (c : Word) (s : List Byte) (i : Nat) (d : Byte) (h : i < s.length) :
    crcFrom c (s.set i d) = crcFrom c s ↔ d = s[i] := by
  induction s generalizing c i with
  | nil => cases h
  | cons b s ih =>
    cases i with
    | zero => exact (crcFrom_left_inj s).trans (crcByte_right_inj c)
    | succ i => exact ih (crcByte c b) i (Nat.lt_of_succ_lt_succ h)

/-- Folding its own low byte leaves the high byte of an accumulator in the high half. -/
theorem le16_xor_low (a b : Byte) : le16 a b ^^^ a.setWidth 16 = b.setWidth 16 <<< 8 := by
  ext i hi
  by_cases h : i < 8
  · simp [le16, h]
  · simp [le16, h, BitVec.getLsbD_of_ge a i (Nat.le_of_not_lt h)]

/-- Folding its own two bytes, low byte first, empties an accumulator (40_crc.md rule R76). -/
theorem crcFrom_le16_self (a b : Byte) : crcFrom (le16 a b) [a, b] = 0#16 := by
  rw [crcFrom_cons, crcFrom_cons, crcFrom_nil, crcByte, crcByte, le16_xor_low, crcShifts_high, BitVec.xor_self,
    crcShifts_zero]

/-- The residue law (40_crc.md rule R76): a sequence leaves 0 exactly when it ends in the CRC of what stands before. -/
theorem crc16_append_eq_zero_iff (s : List Byte) (a b : Byte) : crc16 (s ++ [a, b]) = 0#16 ↔ crc16 s = le16 a b := by
  rw [crc16_append, ← crcFrom_le16_self a b, crcFrom_left_inj]

/-- The decoder's CRC check as a residue, with no regard to where the CRC bytes stand. -/
theorem crcMatches_iff_residue (rx : List Byte) (h : 2 ≤ rx.length) : crcMatches rx = true ↔ crc16 rx = 0#16 := by
  obtain ⟨s, a, b, rfl⟩ : ∃ s a b, rx = s ++ [a, b] := by
    obtain ⟨a, b, hab⟩ := List.length_eq_two.1 (show (rx.drop (rx.length - 2)).length = 2 by simp; omega)
    exact ⟨rx.take (rx.length - 2), a, b, by rw [← hab, List.take_append_drop]⟩
  rw [crcMatches_append, decide_eq_true_iff, crc16_append_eq_zero_iff]

/-- A sequence that leaves 0 no longer does with one byte changed (40_crc.md rule R77). -/
theorem crcMatches_set_eq_false (f : List Byte) (i : Nat) (d : Byte) (hlen : 2 ≤ f.length) (hf : crc16 f = 0#16)
    (hi : i < f.length) (hd : d ≠ f[i]) : crcMatches (f.set i d) = false := by
  rw [← Bool.not_eq_true, crcMatches_iff_residue _ (by rwa [List.length_set]), ← hf]
  exact fun h => hd ((crcFrom_set_inj Config.crcInit f i d hi).1 h)

/-- The second check of the decoder (42_decode.md rule R96). -/
theorem decodeResponse_of_crcMatches_eq_false (rx : List Byte) (hlen : 5 ≤ rx.length) (hc : crcMatches rx = false) :
    decodeResponse rx = .crcMismatch := by
  obtain ⟨hshort, -⟩ | ⟨-, -, hr⟩ | ⟨-, hm, -⟩ | ⟨-, hm, -⟩ | ⟨-, hm, -⟩ := decodeResponse_cases rx
  · omega
  · exact hr
  all_goals simp [hc] at hm

/-- `DEC.RESP` on bytes that fit and do not pass the CRC check (42_decode.md rule R97). -/
theorem exec_decResp_of_crcMismatch (rx : List Byte) (s : State) (hcap : rx.length ≤ s.params.rxCapacity)
    (hr : decodeResponse rx = .crcMismatch) : exec (.decResp rx) s = .next (s.failDecoder .crcMismatch) := by
  rw [exec_decResp, decodeInto_next s rx hcap, hr, latchDec_crcMismatch]

/-- Settles O20: a valid frame leaves the residue 0, and with one byte changed it leaves another. -/
theorem singleByteCorruptionIsDetected : Obligations.SingleByteCorruptionIsDetected := by
  unfold Obligations.SingleByteCorruptionIsDetected
  intro body i d f hlen hi hd
  have hf : crc16 f = 0#16 := (crc16_append_eq_zero_iff body _ _).2 (le16_lo8_hi8 (crc16 body)).symm
  have hset : (f.set i d).length = f.length := List.length_set
  have hr : decodeResponse (f.set i d) = .crcMismatch :=
    decodeResponse_of_crcMatches_eq_false _ (by rwa [hset]) (crcMatches_set_eq_false f i d (by omega) hf hi hd)
  refine ⟨hr, fun s hcap => ⟨s.failDecoder .crcMismatch, ?_, rfl, rfl, rfl, rfl, rfl, fun j => ?_⟩⟩
  · exact exec_decResp_of_crcMismatch _ s (by rwa [hset]) hr
  · exact getElem_absentFile j.val j.isLt

end Sys2Proof.Machine
end

section
/-! PROOFS. `DEC.RESP` (42_decode.md rules R96 to R103): the rows of the decision table, what a result of `decodeResponse` tells about the
bytes, what the decoder's registers hold after a result is latched, and the frames that end in their own CRC. -/

namespace Sys2Proof.Machine

/-- The CRC check as the rule writes it (42_decode.md rule R98, `crc_ok`). -/
theorem crcMatches_iff (rx : List Byte) :
    crcMatches rx = true ↔
      crc16 (rx.take (rx.length - 2)) = le16 (byteAt rx (rx.length - 2)) (byteAt rx (rx.length - 1)) :=
  beq_iff_eq

/-- The payload check as the rule writes it (42_decode.md rule R98, `shape_ok`). -/
theorem payloadShapeOk_iff (rx : List Byte) :
    payloadShapeOk rx = true ↔ (byteAt rx 2).toNat = rx.length - 5 ∧ (byteAt rx 2).toNat % 2 = 0 := by
  rw [payloadShapeOk_eq, decide_eq_true_iff, eq_comm]

/-- The first check of the decoder (42_decode.md rule R96). -/
theorem decodeResponse_of_length_lt (rx : List Byte) (h : rx.length < 5) : decodeResponse rx = .shortFrame :=
  if_pos h

/-- The last two checks of the decoder, on bytes that pass the first two (42_decode.md rules R96 and R98). -/
theorem decodeResponse_of_crcMatches (rx : List Byte) (hlen : 5 ≤ rx.length) (hc : crcMatches rx = true) :
    decodeResponse rx =
      if (byteAt rx 1).getLsbD 7 = true then .exceptionResponse (byteAt rx 2)
      else if (byteAt rx 2).toNat = rx.length - 5 ∧ (byteAt rx 2).toNat % 2 = 0 then
        .ok (byteAt rx 0) (byteAt rx 1) ((List.range ((byteAt rx 2).toNat / 2)).map (registerWord rx))
      else .malformedPayload := by
  have hlong : ¬ rx.length < Config.minRespLen := Nat.not_lt.2 hlen
  rw [decodeResponse, if_neg hlong, hc, exceptionBitSet_eq]
  simp only [← payloadShapeOk_iff, Bool.not_true, Bool.false_eq_true, if_false, Bool.not_eq_true', ← Bool.not_eq_true, ite_not]

/-- Bytes that decode to `Ok` have passed every check (42_decode.md rule R96). -/
theorem of_decodeResponse_eq_ok {rx : List Byte} {addr func : Byte} {regs : List Word}
    (h : decodeResponse rx = .ok addr func regs) :
    rx.length = 5 + (byteAt rx 2).toNat ∧ (byteAt rx 2).toNat % 2 = 0 ∧ addr = byteAt rx 0 ∧ func = byteAt rx 1
      ∧ regs = (List.range ((byteAt rx 2).toNat / 2)).map (registerWord rx) := by
  obtain ⟨-, hr⟩ | ⟨-, -, hr⟩ | ⟨-, -, -, hr⟩ | ⟨-, -, -, -, hr⟩ | ⟨hlen, -, -, hp, hr⟩ := decodeResponse_cases rx
  all_goals rw [hr] at h
  iterate 4 cases h
  obtain ⟨rfl, rfl, rfl⟩ := DecResult.ok.inj h
  obtain ⟨hbc, heven⟩ := (payloadShapeOk_iff rx).1 hp
  exact ⟨by omega, heven, rfl, rfl, rfl⟩

/-- Bytes that decode to `ExceptionResponse` give the code as byte 2 (42_decode.md rules R96 and R102). -/
theorem of_decodeResponse_eq_exceptionResponse {rx : List Byte} {code : Byte}
    (h : decodeResponse rx = .exceptionResponse code) : 5 ≤ rx.length ∧ code = byteAt rx 2 := by
  obtain ⟨-, hr⟩ | ⟨-, -, hr⟩ | ⟨hlen, -, -, hr⟩ | ⟨-, -, -, -, hr⟩ | ⟨-, -, -, -, hr⟩ := decodeResponse_cases rx
  all_goals rw [hr] at h; cases h
  exact ⟨hlen, rfl⟩

/-- What decodes to `Ok` fits the file `REG` (10_state.md rule R18). -/
theorem length_le_of_decodeResponse_eq_ok {rx : List Byte} {addr func : Byte} {regs : List Word}
    (h : decodeResponse rx = .ok addr func regs) : regs.length ≤ 127 := by
  obtain ⟨-, -, -, -, rfl⟩ := of_decodeResponse_eq_ok h
  simpa using byte_half_le (byteAt rx 2)

/-- `DEC.RESP` on bytes that fit, by what they decode to (42_decode.md rule R97). -/
theorem exec_decResp_of_decodeResponse {rx : List Byte} {r : DecResult} (s : State) (hcap : rx.length ≤ s.params.rxCapacity)
    (hr : decodeResponse rx = r) : exec (.decResp rx) s = .next (s.latchDec rx r) := by
  rw [exec_decResp, decodeInto_next s rx hcap, hr]

/-! ### Reading the registers back -/

/-- Words that fit `REG` are read back whole: `REG_COUNT` does not wrap (10_state.md rules R17 to R19). -/
theorem decView_writeRegisters (s : State) (addr func : Byte) (regs : List Word) (h : regs.length ≤ 127) :
    (s.writeRegisters addr func regs).decView = some (.ok addr func regs) := by
  have hcount : (BitVec.ofNat 7 regs.length).toNat = regs.length := Nat.mod_eq_of_lt (by omega)
  simp [State.decView, presentEntries_fileOf regs h, hcount]

/-- The registers hold the result that was latched (10_state.md rule R19). -/
theorem decView_latchDec (s : State) (rx : List Byte) :
    (s.latchDec rx (decodeResponse rx)).decView = some (decodeResponse rx) := by
  cases hr : decodeResponse rx with
  | ok addr func regs => exact decView_writeRegisters s addr func regs (length_le_of_decodeResponse_eq_ok hr)
  | _ => rfl

/-- Settles O30: what `DEC.RESP` latches is read back unchanged, so each row is what `decodeResponse` answers under that row's checks. -/
theorem decRespFollowsTheDecisionTable : Obligations.DecRespFollowsTheDecisionTable := by
  unfold Obligations.DecRespFollowsTheDecisionTable
  intro rx s hcap n crcOk exc shapeOk
  have hrow : ∀ r, decodeResponse rx = r → (s.latchDec rx (decodeResponse rx)).decStatus = statusCode (decResultStatus r)
      ∧ (s.latchDec rx (decodeResponse rx)).decView = some r := by
    rintro _ rfl
    exact ⟨latchDec_decStatus s rx _, decView_latchDec s rx⟩
  have hvalid (hlen : 5 ≤ n) (hc : crcOk) := decodeResponse_of_crcMatches rx hlen ((crcMatches_iff rx).2 hc)
  refine ⟨_, exec_decResp_of_decodeResponse s hcap rfl, fun hlen => ?short, fun hlen hc => ?crc, fun hlen hc he => ?exception,
    fun hlen hc he hs => ?malformed, fun hlen hc he hs => ?ok⟩
  case short => exact hrow .shortFrame (decodeResponse_of_length_lt rx hlen)
  case crc =>
    have hm : crcMatches rx = false := Bool.eq_false_iff.2 (mt (crcMatches_iff rx).1 hc)
    exact hrow .crcMismatch (decodeResponse_of_crcMatches_eq_false rx hlen hm)
  case exception => exact hrow (.exceptionResponse _) ((hvalid hlen hc).trans (if_pos he))
  case malformed => exact hrow .malformedPayload (((hvalid hlen hc).trans (if_neg he)).trans (if_neg hs))
  case ok => exact hrow (.ok _ _ _) (((hvalid hlen hc).trans (if_neg he)).trans (if_pos hs))

/-! ### The registers after each status -/

theorem statusCode_decResultStatus_eq_ok {r : DecResult} (h : statusCode (decResultStatus r) = 0#3) :
    ∃ addr func regs, r = .ok addr func regs := by
  cases r with
  | ok addr func regs => exact ⟨addr, func, regs, rfl⟩
  | _ => cases h

theorem statusCode_decResultStatus_eq_exceptionResponse {r : DecResult} (h : statusCode (decResultStatus r) = 4#3) :
    ∃ code, r = .exceptionResponse code := by
  cases r with
  | exceptionResponse code => exact ⟨code, rfl⟩
  | _ => cases h

/-- Every other failure records no data (42_decode.md rule R97; 60_exceptions.md rule R153). -/
theorem latchDec_eq_failDecoder (s : State) (rx : List Byte) {r : DecResult} (hok : statusCode (decResultStatus r) ≠ 0#3)
    (hexc : statusCode (decResultStatus r) ≠ 4#3) : s.latchDec rx r = s.failDecoder (decResultStatus r) := by
  cases r with
  | ok => exact absurd rfl hok
  | exceptionResponse => exact absurd rfl hexc
  | _ => rfl

/-- The codes a result of the decoder can leave (60_exceptions.md rule R150). -/
theorem statusCode_decResultStatus_cases (r : DecResult) :
    statusCode (decResultStatus r) = 0#3 ∨ statusCode (decResultStatus r) = 2#3 ∨ statusCode (decResultStatus r) = 3#3
      ∨ statusCode (decResultStatus r) = 4#3 ∨ statusCode (decResultStatus r) = 5#3 := by
  cases r <;> simp [decResultStatus, statusCode]

/-- The words of a data response by position (42_decode.md rule R103). -/
theorem getElem?_map_registerWord (rx : List Byte) (k i : Nat) :
    ((List.range k).map (registerWord rx))[i]? = if i < k then some (registerWord rx i) else none := by
  by_cases h : i < k <;> simp [h]

/-- A file without values, entry by entry. -/
theorem allAbsent_absentFile {α : Type} (n : Nat) : allAbsent (absentFile n : Vector (Option α) n) :=
  fun i => getElem_absentFile i.val i.isLt

/-- Settles O31: the status tells which result was latched, and the result tells what the bytes were. -/
theorem decRespLatchesItsRegisters : Obligations.DecRespLatchesItsRegisters := by
  unfold Obligations.DecRespLatchesItsRegisters
  intro rx s t h
  rw [exec_decResp] at h
  obtain ⟨hcap, rfl⟩ := decodeInto_eq_next h
  rw [latchDec_decStatus]
  refine ⟨hcap, latchDec_crc .., ⟨latchDec_encStatus .., latchDec_tx ..⟩, fun hst => ?ok, fun hst => ?exception,
    fun hst => ?failure, statusCode_decResultStatus_cases _⟩
  case ok =>
    obtain ⟨addr, func, regs, hr⟩ := statusCode_decResultStatus_eq_ok hst
    obtain ⟨hlen, heven, rfl, rfl, rfl⟩ := of_decodeResponse_eq_ok hr
    rw [hr, latchDec_ok, getElem?_eq_byteAt rx 0 (by omega), getElem?_eq_byteAt rx 1 (by omega)]
    refine ⟨by omega, rfl, rfl, rfl, by simp, fun i => ?_⟩
    exact (getElem_fileOf _ i.val i.isLt).trans (getElem?_map_registerWord rx _ i.val)
  case exception =>
    obtain ⟨code, hr⟩ := statusCode_decResultStatus_eq_exceptionResponse hst
    obtain ⟨hlen, rfl⟩ := of_decodeResponse_eq_exceptionResponse hr
    rw [hr, latchDec_exception, getElem?_eq_byteAt rx 2 (by omega)]
    exact ⟨rfl, rfl, rfl, rfl, allAbsent_absentFile 127⟩
  case failure =>
    have hfail : s.latchDec rx (decodeResponse rx) = s.failDecoder (decResultStatus (decodeResponse rx)) :=
      latchDec_eq_failDecoder s rx (fun h => by simp [h] at hst) (fun h => by simp [h] at hst)
    rw [hfail]
    exact ⟨rfl, rfl, rfl, rfl, allAbsent_absentFile 127⟩

/-! ### Frames that end in their own CRC -/

/-- A sequence followed by its own CRC, low byte first (30_encoding.md rule R54). -/
def withOwnCrc (body : List Byte) : List Byte := body ++ crcTail (crc16 body)

/-- The checks left on a frame with its own CRC: bit 7 of byte 1 and the payload's shape (42_decode.md rule R96). -/
theorem decodeResponse_withOwnCrc (addr func third : Byte) (payload : List Byte) :
    decodeResponse (withOwnCrc ([addr, func, third] ++ payload)) =
      if func.getLsbD 7 then .exceptionResponse third
      else if ¬ (payload.length = third.toNat ∧ third.toNat % 2 = 0) then .malformedPayload
      else .ok addr func ((List.range (third.toNat / 2)).map (registerWord (withOwnCrc ([addr, func, third] ++ payload)))) := by
  rw [withOwnCrc, decodeResponse_fields, if_neg (not_not.2 rfl)]

/-- `DEC.RESP` on a frame with its own CRC that fits (42_decode.md rule R97). -/
theorem exec_decResp_withOwnCrc {addr func third : Byte} {payload : List Byte} {r : DecResult} (s : State)
    (hcap : 5 + payload.length ≤ s.params.rxCapacity)
    (hr : decodeResponse (withOwnCrc ([addr, func, third] ++ payload)) = r) :
    exec (.decResp (withOwnCrc ([addr, func, third] ++ payload))) s =
      .next (s.latchDec (withOwnCrc ([addr, func, third] ++ payload)) r) := by
  have hlen : (withOwnCrc ([addr, func, third] ++ payload)).length = 5 + payload.length := by
    simp [withOwnCrc]
    omega
  exact exec_decResp_of_decodeResponse s (hlen ▸ hcap) hr

/-- A file that holds no words holds no value (42_decode.md rule R99). -/
theorem fileOf_nil {α : Type} (n : Nat) : fileOf n ([] : List α) = absentFile n := by
  ext1 i hi
  rw [getElem_fileOf, getElem_absentFile, List.getElem?_nil]

/-- Settles O33: bit 7 is looked at before the payload, so what follows byte 2 makes no difference. -/
theorem exceptionResponsesOfEveryLength : Obligations.ExceptionResponsesOfEveryLength := by
  unfold Obligations.ExceptionResponsesOfEveryLength
  intro addr func code extra s hf hcap body
  exact exec_decResp_withOwnCrc s hcap ((decodeResponse_withOwnCrc addr func code extra).trans (if_pos hf))

/-- Settles O34: byte count 0 is the length of no payload and is even, and no words leave `REG` without a value. -/
theorem emptyPayloadIsOk : Obligations.EmptyPayloadIsOk := by
  unfold Obligations.EmptyPayloadIsOk
  intro addr func s hf hcap body
  have hr : decodeResponse (withOwnCrc ([addr, func, 0#8] ++ [])) = .ok addr func [] := by
    rw [decodeResponse_withOwnCrc, hf]
    rfl
  have hexec := exec_decResp_withOwnCrc (payload := []) s hcap hr
  rw [latchDec_ok, State.writeRegisters, fileOf_nil] at hexec
  exact hexec

/-- Settles O35: the byte count is the payload's length, so it is its oddness that fails the shape check. -/
theorem oddByteCountIsMalformed : Obligations.OddByteCountIsMalformed := by
  unfold Obligations.OddByteCountIsMalformed
  intro addr func bc payload s hf _ hodd hcap body
  have hshape : ¬ (payload.length = bc.toNat ∧ bc.toNat % 2 = 0) := fun ⟨_, heven⟩ => by omega
  have hr : decodeResponse (withOwnCrc ([addr, func, bc] ++ payload)) = .malformedPayload := by
    rw [decodeResponse_withOwnCrc, hf, if_neg Bool.false_ne_true, if_pos hshape]
  exact exec_decResp_withOwnCrc s hcap hr

end Sys2Proof.Machine
end

section
/-! PROOFS. Decoding and encoding (30_encoding.md rules R45 to R54 and R63; 41_encode.md rule R87): what each reader of a presentation answers
on what the encoder writes, that eight bytes are a request frame and five or more a response cut into its fields, and what a port carries for a
software integer. -/

namespace Sys2Proof.Machine

/-! ### Operations and lines -/

/-- An operation is read by its select code (30_encoding.md rule R45). -/
theorem readOperation_crcInit {p : Ports} (h : p.op = 0b00#2) : readOperation p = .crcInit := if_pos h

theorem readOperation_crcUpdate {p : Ports} (h : p.op = 0b01#2) : readOperation p = .crcUpdate p.crcIn := by
  rw [readOperation, h]; rfl

theorem readOperation_encRead {p : Ports} (h : p.op = 0b10#2) :
    readOperation p = .encRead p.slaveId p.func p.startAddr p.quantity := by
  rw [readOperation, h]; rfl

theorem readOperation_decResp {p : Ports} (h : p.op = 0b11#2) : readOperation p = .decResp p.rx := by
  rw [readOperation, h]; rfl

/-- The line of a `CRC.MSG` is read back with its bytes (30_encoding.md rule R63). -/
theorem readLine_updates (bytes : List Byte) :
    readLine ({ idlePorts with op := opCrcInit } :: bytes.map updatePorts) = .ok (.crcMsg bytes) := by
  have hops : (bytes.map updatePorts).all (fun q => q.op == opCrcUpdate) = true := by
    rw [List.all_map, List.all_eq_true]
    exact fun _ _ => rfl
  have hbytes : (bytes.map updatePorts).map Ports.crcIn = bytes := by
    rw [List.map_map]
    exact List.map_id bytes
  rw [readLine, if_pos ⟨rfl, hops⟩, hbytes]

/-- The line of an `ENC.RIR` is read back with its operands (30_encoding.md rule R63). -/
theorem readLine_encRir (slaveId : Byte) (startAddr quantity : Word) :
    readLine [encReadPorts slaveId Config.fcRir startAddr quantity] = .ok (.encRir slaveId startAddr quantity) := rfl

/-! ### Request frames -/

/-- A request frame is read back field by field, under the name its function code gives it (30_encoding.md rules R48 and R49). -/
theorem readRequestFrame_frame (addr func : Byte) (startAddr quantity crc : Word) :
    readRequestFrame (requestBody addr func startAddr quantity ++ crcTail crc) =
      if func = Config.fcRir then .ok (.reqRir addr startAddr quantity crc)
      else .ok (.req addr func startAddr quantity crc) := by
  simp [requestBody, crcTail, readRequestFrame]

/-- Eight bytes are the six bytes of a request and a CRC field (30_encoding.md rule R48). -/
theorem exists_requestFrame {bytes : List Byte} (h : bytes.length = 8) :
    ∃ addr func startAddr quantity crc, bytes = requestBody addr func startAddr quantity ++ crcTail crc := by
  match bytes, h with
  | [addr, func, startHi, startLo, qtyHi, qtyLo, crcLo, crcHi], _ =>
    exact ⟨addr, func, be16 startHi startLo, be16 qtyHi qtyLo, le16 crcLo crcHi, by simp [requestBody, crcTail]⟩

/-- Nothing but eight bytes is read as a request frame. -/
theorem length_of_readRequestFrame {bytes : List Byte} {i : Instr} (h : readRequestFrame bytes = .ok i) : bytes.length = 8 := by
  unfold readRequestFrame at h
  split at h
  · rfl
  · cases h

/-! ### Response frames -/

/-- A response of at least five bytes is three header bytes, what follows them, and a CRC field (30_encoding.md rules R50 and R51). -/
theorem exists_responseFields {bytes : List Byte} (h : 5 ≤ bytes.length) :
    ∃ addr func third payload crc, bytes = [addr, func, third] ++ payload ++ crcTail crc := by
  match bytes, h with
  | addr :: func :: third :: rest, h =>
    have hrest : 2 ≤ rest.length := by simpa using h
    obtain ⟨a, b, htail⟩ := List.length_eq_two.1 (show (rest.drop (rest.length - 2)).length = 2 by rw [List.length_drop]; omega)
    refine ⟨addr, func, third, rest.take (rest.length - 2), le16 a b, ?_⟩
    rw [crcTail, lo8_le16, hi8_le16, ← htail, List.append_assoc, List.take_append_drop]
    rfl

/-- A response of fewer than five bytes stands for `DEC.RESP` on them (30_encoding.md rule R52). -/
theorem readResponseFrame_short {bytes : List Byte} (h : bytes.length < 5) : readResponseFrame bytes = .decResp bytes := by
  unfold readResponseFrame
  split
  · next addr func third rest =>
    have hrest : rest.length < 2 := by simp only [List.length_cons] at h; omega
    exact if_pos hrest
  · rfl

/-- A response cut into its fields is named by bit 7 of byte 1, and by its length where that bit is set (30_encoding.md rules R50 to R52). -/
theorem readResponseFrame_fields (addr func third : Byte) (payload : List Byte) (crc : Word) :
    readResponseFrame ([addr, func, third] ++ payload ++ crcTail crc) =
      if func.getLsbD 7 = false then .rspData addr (func.extractLsb' 0 7) third payload crc
      else if payload = [] then .rspExc addr (func.extractLsb' 0 7) third crc
      else .decResp ([addr, func, third] ++ payload ++ crcTail crc) := by
  have hlen : (payload ++ crcTail crc).length - 2 = payload.length := by simp
  have hlong : ¬ (payload ++ crcTail crc).length < 2 := by simp
  obtain ⟨hlo, hhi⟩ := byteAt_tail payload (lo8 crc) (hi8 crc)
  have hcrc : le16 (byteAt (payload ++ crcTail crc) payload.length) (byteAt (payload ++ crcTail crc) (payload.length + 1)) = crc := by
    rw [crcTail, hlo, hhi, le16_lo8_hi8]
  simp only [List.cons_append, List.nil_append, readResponseFrame, hlong, hlen, hcrc, and_excBit, if_false,
    List.take_left', List.length_eq_zero_iff]

/-- Bit 7 of byte 1 and the bits below it are the whole byte (30_encoding.md rules R50 and R51). -/
theorem responseFunc_bits (func : Byte) : responseFunc (func.getLsbD 7) (func.extractLsb' 0 7) = func := by
  revert func; decide +kernel

/-! ### Round trips -/

/-- Settles O3: each row is read by the reader of its own kind of presentation, which gives every field back. -/
theorem decodeEncodeRoundTrip : Obligations.DecodeEncodeRoundTrip := by
  unfold Obligations.DecodeEncodeRoundTrip
  intro i hi
  cases i with
  | crcInit => rfl
  | crcUpdate b => rfl
  | encRead slaveId func startAddr quantity => rfl
  | decResp rx => rfl
  | crcMsg bytes => exact readLine_updates bytes
  | encRir slaveId startAddr quantity => exact readLine_encRir slaveId startAddr quantity
  | req addr func startAddr quantity crc =>
    have hfunc : func ≠ Config.fcRir := bne_iff_ne.1 hi
    exact (readRequestFrame_frame addr func startAddr quantity crc).trans (if_neg hfunc)
  | reqRir addr startAddr quantity crc =>
    exact (readRequestFrame_frame addr Config.fcRir startAddr quantity crc).trans (if_pos rfl)
  | rspData addr func bc payload crc =>
    refine congrArg Except.ok ((readResponseFrame_fields addr (responseFunc false func) bc payload crc).trans ?_)
    rw [responseFunc_bit7, if_pos rfl, responseFunc_low]
  | rspExc addr func exc crc =>
    refine congrArg Except.ok ((readResponseFrame_fields addr (responseFunc true func) exc [] crc).trans ?_)
    rw [responseFunc_bit7, if_neg (by decide), if_pos rfl, responseFunc_low]

/-- Whatever a request frame is read as encodes to the same bytes (30_encoding.md rules R48 and R49). -/
theorem encode_of_readRequestFrame {bytes : List Byte} {i : Instr} (h : readRequestFrame bytes = .ok i) :
    encode i = .request bytes := by
  obtain ⟨addr, func, startAddr, quantity, crc, rfl⟩ := exists_requestFrame (length_of_readRequestFrame h)
  rw [readRequestFrame_frame] at h
  split at h
  · next hfunc => cases h; subst hfunc; rfl
  · cases h; rfl

/-- A response is read as the frame row that encodes to it, or kept whole as the operand of `DEC.RESP`
(30_encoding.md rules R50 to R52). -/
theorem encode_readResponseFrame (bytes : List Byte) :
    encode (readResponseFrame bytes) = .response bytes ∨ readResponseFrame bytes = .decResp bytes := by
  by_cases hlen : bytes.length < 5
  · exact .inr (readResponseFrame_short hlen)
  · obtain ⟨addr, func, third, payload, crc, rfl⟩ := exists_responseFields (Nat.le_of_not_lt hlen)
    have hfunc := responseFunc_bits func
    rw [readResponseFrame_fields]
    split
    · next hdata =>
      rw [hdata] at hfunc
      exact .inl (by rw [encode, dataBody, hfunc])
    · next hexc =>
      rw [Bool.eq_true_of_not_eq_false hexc] at hfunc
      split
      · next hnil => exact .inl (by rw [encode, exceptionBody, hfunc, hnil, List.append_nil])
      · exact .inr rfl

/-- Settles O4: a frame read under a frame's name is laid out from its own fields again. -/
theorem encodeDecodeKeepsFrames : Obligations.EncodeDecodeKeepsFrames := by
  unfold Obligations.EncodeDecodeKeepsFrames
  refine ⟨fun bytes i h => encode_of_readRequestFrame h, fun bytes i h => ?response,
    fun bytes => ⟨fun ⟨i, h⟩ => length_of_readRequestFrame h, fun h => ?eight⟩⟩
  case response =>
    obtain rfl : readResponseFrame bytes = i := Except.ok.inj h
    exact encode_readResponseFrame bytes
  case eight =>
    obtain ⟨addr, func, startAddr, quantity, crc, rfl⟩ := exists_requestFrame h
    rw [decode, readRequestFrame_frame]
    split <;> exact ⟨_, rfl⟩

/-- Settles O1: each word is written out, and the decoder computes. -/
theorem decodesWordsOfTheSpec : Obligations.DecodesWordsOfTheSpec := by
  unfold Obligations.DecodesWordsOfTheSpec
  decide +kernel

/-- Settles O2: two bits have four values, one for each operation. -/
theorem operationDecodingIsTotal : Obligations.OperationDecodingIsTotal := by
  unfold Obligations.OperationDecodingIsTotal
  exact fun p => ⟨fun h => congrArg _ (readOperation_crcInit h), fun h => congrArg _ (readOperation_crcUpdate h),
    fun h => congrArg _ (readOperation_encRead h), fun h => congrArg _ (readOperation_decResp h), readOperation p, rfl⟩

/-- Settles O5: what an operation is read as names only the operands of its row. -/
theorem unlistedOperandsAreIgnored : Obligations.UnlistedOperandsAreIgnored := by
  unfold Obligations.UnlistedOperandsAreIgnored
  simp only [decode]
  refine ⟨fun p q hp hq => ?_, fun p q hp hq hcrc => ?_, fun p q hp hq hslave hfunc hstart hqty => ?_, fun p q hp hq hrx => ?_⟩
  · rw [readOperation_crcInit hp, readOperation_crcInit hq]
  · rw [readOperation_crcUpdate hp, readOperation_crcUpdate hq, hcrc]
  · rw [readOperation_encRead hp, readOperation_encRead hq, hslave, hfunc, hstart, hqty]
  · rw [readOperation_decResp hp, readOperation_decResp hq, hrx]

/-- Settles O45: each line is written out, and the reader computes. -/
theorem textLinesOfTheSpec : Obligations.TextLinesOfTheSpec := by
  unfold Obligations.TextLinesOfTheSpec
  decide +kernel

/-! ### Calls on software integers -/

theorem toNat_ofInt_of_range {n : Nat} {i : Int} (h0 : 0 ≤ i) (hn : i < (2 ^ n : Nat)) :
    ((BitVec.ofInt n i).toNat : Int) = i := by
  rw [BitVec.toNat_ofInt, Int.emod_eq_of_lt h0 hn, Int.toNat_of_nonneg h0]

/-- A port carries an integer it has room for, and 0 for every other (41_encode.md rule R87). -/
theorem toNat_validatedPort (n : Nat) (i : Int) :
    ((validatedPort n i).toNat : Int) = if 0 ≤ i ∧ i < (2 ^ n : Nat) then i else 0 := by
  unfold validatedPort
  split
  · next h => exact toNat_ofInt_of_range h.1 h.2
  · simp

/-- No integer slave address is brought into range by its port (41_encode.md rule R87). -/
theorem slaveInRange_validatedPort (i : Int) : slaveInRange (validatedPort 8 i) = true ↔ 1 ≤ i ∧ i ≤ 247 := by
  have h := toNat_validatedPort 8 i
  rw [slaveInRange_iff]
  split at h <;> omega

/-- No integer quantity is brought into range by its port (41_encode.md rule R87). -/
theorem quantityInRange_validatedPort (i : Int) : quantityInRange (validatedPort 16 i) = true ↔ 1 ≤ i ∧ i ≤ 125 := by
  have h := toNat_validatedPort 16 i
  rw [quantityInRange_iff]
  split at h <;> omega

/-- A call that some port cannot carry gets no result (41_encode.md rule R87). -/
theorem readCall_unpresentable (slaveId functionCode startAddress quantity : Int)
    (h : ¬ (0 ≤ functionCode ∧ functionCode ≤ 255) ∨ ¬ (0 ≤ startAddress ∧ startAddress ≤ 65535)) :
    ∃ e, readCall slaveId functionCode startAddress quantity = .error e := by
  unfold readCall
  split
  · exact ⟨_, rfl⟩
  · next hfunc => exact ⟨_, if_pos (h.resolve_left hfunc)⟩

/-- Every other call is `ENC.READ` on what the ports carry (41_encode.md rule R87). -/
theorem readCall_presentable (slaveId functionCode startAddress quantity : Int)
    (hf : 0 ≤ functionCode ∧ functionCode ≤ 255) (hs : 0 ≤ startAddress ∧ startAddress ≤ 65535) :
    readCall slaveId functionCode startAddress quantity =
      .ok (.encRead (validatedPort 8 slaveId) (BitVec.ofInt 8 functionCode) (BitVec.ofInt 16 startAddress)
        (validatedPort 16 quantity)) := by
  rw [readCall, if_neg (not_not.2 hf), if_neg (not_not.2 hs)]

/-- Settles O6: a port either carries the very integer, or carries 0, which the range checks reject. -/
theorem softwareIntegersAreNeverTruncated : Obligations.SoftwareIntegersAreNeverTruncated := by
  unfold Obligations.SoftwareIntegersAreNeverTruncated
  intro slaveId functionCode startAddress quantity call
  refine ⟨readCall_unpresentable slaveId functionCode startAddress quantity, fun hf hf' hs hs' =>
    ⟨_, readCall_presentable slaveId functionCode startAddress quantity ⟨hf, hf'⟩ ⟨hs, hs'⟩,
      fun h => ?inRange, fun h s => ?outOfRange⟩⟩
  case inRange =>
    refine ⟨_, _, _, _, rfl, ?_, toNat_ofInt_of_range hf (by omega), toNat_ofInt_of_range hs (by omega), ?_⟩
    · rw [toNat_validatedPort, if_pos (by omega)]
    · rw [toNat_validatedPort, if_pos (by omega)]
  case outOfRange =>
    have hout : slaveInRange (validatedPort 8 slaveId) = false ∨ quantityInRange (validatedPort 16 quantity) = false := by
      rw [← Bool.not_eq_true, ← Bool.not_eq_true, slaveInRange_validatedPort, quantityInRange_validatedPort]
      omega
    refine ⟨s.failEncoder .invalidParameter, ?_, rfl, allAbsent_absentFile 8⟩
    rw [exec_encRead, encodeRead_invalid _ _ _ _ hout, latchEnc_invalid]

end Sys2Proof.Machine
end

section
/-! PROOFS. The CRC unit, continued: the table form of `crc_byte` (40_crc.md section 4), what a stream of bytes leaves in the accumulator
(rules R63, R70, R71, R74 and R75), and the residue (rule R76). -/

namespace Sys2Proof.Machine

/-! ### The table form -/

/-- A word is its high byte moved up, and its low byte. -/
theorem shiftLeft_hi8_xor_lo8 (w : Word) : ((hi8 w).setWidth 16 <<< 8) ^^^ (lo8 w).setWidth 16 = w := by
  have h := le16_xor_low (lo8 w) (hi8 w)
  rw [le16_lo8_hi8] at h
  rw [← h, BitVec.xor_assoc, BitVec.xor_self, BitVec.xor_zero]

theorem setWidth_hi8 (w : Word) : (hi8 w).setWidth 16 = w >>> 8 := by
  apply BitVec.eq_of_toNat_eq
  rw [hi8, BitVec.toNat_setWidth, BitVec.extractLsb'_toNat, BitVec.toNat_ushiftRight, Nat.shiftRight_eq_div_pow]
  omega

/-- A byte has no bits above bit 7. -/
theorem setWidth_byte_shiftRight (b : Byte) : b.setWidth 16 >>> 8 = 0#16 := by
  revert b; decide +kernel

/-- Eight shifts move the high byte down and look the low byte up (40_crc.md section 4). -/
theorem crcShifts_eight (w : Word) : crcShifts 8 w = (w >>> 8) ^^^ crcByte 0#16 (lo8 w) := by
  have hsplit := congrArg (crcShifts 8) (shiftLeft_hi8_xor_lo8 w)
  rw [crcShifts_xor, crcShifts_high, setWidth_hi8] at hsplit
  rw [crcByte, BitVec.zero_xor, hsplit]

/-- Settles O16: `crc_shift` is linear, and eight shifts of the high half only move it down. -/
theorem crcByteHasTheTableForm : Obligations.CrcByteHasTheTableForm := by
  unfold Obligations.CrcByteHasTheTableForm
  refine ⟨fun c b => ?_, by decide +kernel⟩
  have hhigh : (c ^^^ b.setWidth 16) >>> 8 = c >>> 8 := by
    rw [BitVec.ushiftRight_xor_distrib, setWidth_byte_shiftRight, BitVec.xor_zero]
  rw [crcByte, crcShifts_eight, hhigh, lo8]

/-! ### Streams of bytes -/

/-- `CRC.MSG` leaves the CRC of its bytes (40_crc.md rules R74 and R75). -/
theorem exec_crcMsg (bytes : List Byte) (s : State) : exec (.crcMsg bytes) s = .next (s.setCrc (crc16 bytes)) :=
  congrArg Host.Outcome.next (foldl_foldByte (s.setCrc Config.crcInit) bytes)

/-- A run of `CRC.UPDATE` folds its bytes into the accumulator, in order (40_crc.md rule R71). -/
theorem runAll_updates (bytes : List Byte) (s : State) :
    runAll (bytes.map .crcUpdate) s = .next (s.setCrc (crcFrom s.crc bytes)) := by
  induction bytes generalizing s with
  | nil => rfl
  | cons b bytes ih => exact ih (s.setCrc (crcByte s.crc b))

/-- Settles O17: both ways fold the same bytes from the seed. -/
theorem crcStreamComputesCrc16 : Obligations.CrcStreamComputesCrc16 := by
  unfold Obligations.CrcStreamComputesCrc16
  refine ⟨exec_crcMsg, fun bytes s => ?_, fun bytes b s hcrc => ?_⟩
  · rw [exec_crcMsg]
    exact runAll_updates bytes (s.setCrc Config.crcInit)
  · rw [exec_crcUpdate, hcrc, crc16_append]
    rfl

/-- Settles O18: nine bytes, and none; the fold computes. -/
theorem crcCheckValueIsTheCatalogues : Obligations.CrcCheckValueIsTheCatalogues := by
  unfold Obligations.CrcCheckValueIsTheCatalogues
  decide +kernel

/-! ### The residue -/

/-- A sequence with its own CRC appended leaves 0 (40_crc.md rule R76). -/
theorem crc16_withOwnCrc (body : List Byte) : crc16 (withOwnCrc body) = 0#16 :=
  (crc16_append_eq_zero_iff body _ _).2 (le16_lo8_hi8 (crc16 body)).symm

/-- Settles O19: the residue is the accumulator emptied by its own bytes, and folding the same bytes loses no accumulator. -/
theorem crcResidueIsZeroExactlyOnItsOwnCrc : Obligations.CrcResidueIsZeroExactlyOnItsOwnCrc := by
  unfold Obligations.CrcResidueIsZeroExactlyOnItsOwnCrc
  exact ⟨crc16_withOwnCrc, fun s a b => (crc16_append_eq_zero_iff s a b).trans eq_comm,
    Finite.injective_iff_bijective.1 crcShift_injective, crcShift_zero⟩

/-- Bytes decode to `CrcMismatch` exactly where they are long enough and fail the check (42_decode.md rule R96). -/
theorem decodeResponse_eq_crcMismatch_iff {rx : List Byte} (hlen : 5 ≤ rx.length) :
    decodeResponse rx = .crcMismatch ↔ crcMatches rx = false := by
  refine ⟨fun h => ?_, decodeResponse_of_crcMatches_eq_false rx hlen⟩
  obtain ⟨hshort, -⟩ | ⟨-, hm, -⟩ | ⟨-, -, -, hr⟩ | ⟨-, -, -, -, hr⟩ | ⟨-, -, -, -, hr⟩ := decodeResponse_cases rx
  · omega
  · exact hm
  all_goals simp [hr] at h

/-- Bytes that are long enough decode to anything but `CrcMismatch` exactly where they leave 0 (40_crc.md rule R76). -/
theorem decodeResponse_ne_crcMismatch_iff {rx : List Byte} (hlen : 5 ≤ rx.length) :
    decodeResponse rx ≠ .crcMismatch ↔ crc16 rx = 0#16 := by
  rw [ne_eq, decodeResponse_eq_crcMismatch_iff hlen, Bool.not_eq_false, crcMatches_iff_residue rx (by omega)]

/-- Settles O21: a zero byte folded into 0 leaves 0. -/
theorem trailingZeroKeepsTheCrcValid : Obligations.TrailingZeroKeepsTheCrcValid := by
  unfold Obligations.TrailingZeroKeepsTheCrcValid
  intro rx hlen h
  have hres : crc16 rx = 0#16 := (decodeResponse_ne_crcMismatch_iff hlen).1 h
  refine (decodeResponse_ne_crcMismatch_iff (by rw [List.length_append]; omega)).2 ?_
  rw [crc16_append, hres]
  rfl

end Sys2Proof.Machine
end

section
/-! PROOFS. The whole machine (10_state.md sections 3 to 6; 70_reset_and_hazards.md section 1): what each unit's operation leaves unchanged, what
reading the registers back gives, and the invariant. Every instruction writes the accumulator, latches a result of the encoder, or latches a
result of the decoder; each law is proved once for each of the three. -/

namespace Sys2Proof.Machine

/-! ### Frames of the three writes -/

theorem sameEncoder_setCrc (s : State) (c : Word) : sameEncoder s (s.setCrc c) := ⟨rfl, rfl⟩

theorem sameDecoder_setCrc (s : State) (c : Word) : sameDecoder s (s.setCrc c) := ⟨rfl, rfl, rfl, rfl, rfl, rfl⟩

theorem sameHost_setCrc (s : State) (c : Word) : sameHost s (s.setCrc c) := ⟨rfl, rfl⟩

theorem sameDecoder_latchEnc (s : State) (r : EncResult) : sameDecoder s (s.latchEnc r) :=
  ⟨latchEnc_decStatus s r, latchEnc_rAddr s r, latchEnc_rFunc s r, latchEnc_exc s r, latchEnc_regCount s r, latchEnc_reg s r⟩

theorem sameHost_latchEnc (s : State) (r : EncResult) : sameHost s (s.latchEnc r) :=
  ⟨latchEnc_params s r, latchEnc_pending s r⟩

theorem sameEncoder_latchDec (s : State) (rx : List Byte) (r : DecResult) : sameEncoder s (s.latchDec rx r) :=
  ⟨latchDec_encStatus s rx r, latchDec_tx s rx r⟩

theorem sameHost_latchDec (s : State) (rx : List Byte) (r : DecResult) : sameHost s (s.latchDec rx r) :=
  ⟨latchDec_params s rx r, latchDec_pending s rx r⟩

/-- No instruction changes the parameters or what is presented next (20_memory.md rule R41). -/
theorem exec_sameHost {i : Instr} {s t : State} (h : exec i s = .next t) : sameHost s t := by
  obtain ⟨c, rfl⟩ | ⟨addr, func, startAddr, quantity, rfl⟩ | ⟨rx, -, rfl⟩ := exec_cases h
  · exact sameHost_setCrc s c
  · exact sameHost_latchEnc s _
  · exact sameHost_latchDec s rx _

/-! ### What an instruction writes, by what it returns -/

theorem eq_latchEnc_of_returned {i : Instr} {r : EncResult} {s t : State} (hr : returned i = .enc r) (h : exec i s = .next t) :
    t = s.latchEnc r := by
  rw [exec_of_returned_enc hr] at h
  exact (Host.Outcome.next.inj h).symm

theorem exists_eq_latchDec_of_returned {i : Instr} {r : DecResult} {s t : State} (hr : returned i = .dec r)
    (h : exec i s = .next t) : ∃ rx, r = decodeResponse rx ∧ t = s.latchDec rx r := by
  obtain ⟨rx, rfl, hexec⟩ := exec_of_returned_dec hr
  rw [hexec] at h
  exact ⟨rx, rfl, (decodeInto_eq_next h).2⟩

theorem exists_eq_setCrc_of_returned {i : Instr} {s t : State} (hr : returned i = .nothing) (h : exec i s = .next t) :
    ∃ c, t = s.setCrc c := by
  obtain ⟨c, hexec⟩ := exec_of_returned_nothing hr s
  rw [hexec] at h
  exact ⟨c, (Host.Outcome.next.inj h).symm⟩

/-- What the encoder's rows return is an answer of `encodeRead` (41_encode.md rule R85). -/
theorem exists_encodeRead_of_returned {i : Instr} {r : EncResult} (hr : returned i = .enc r) :
    ∃ addr func startAddr quantity, r = encodeRead addr func startAddr quantity := by
  cases i with
  | encRead a f sa q => exact ⟨a, f, sa, q, (Returned.enc.inj hr).symm⟩
  | encRir a sa q => exact ⟨a, Config.fcRir, sa, q, (Returned.enc.inj hr).symm⟩
  | req a f sa q c => exact ⟨a, f, sa, q, (Returned.enc.inj hr).symm⟩
  | reqRir a sa q c => exact ⟨a, Config.fcRir, sa, q, (Returned.enc.inj hr).symm⟩
  | _ => cases hr

/-- Settles O22: the rows of the CRC unit return nothing, and such a row writes the accumulator. -/
theorem crcRowsChangeOnlyTheAccumulator : Obligations.CrcRowsChangeOnlyTheAccumulator := by
  unfold Obligations.CrcRowsChangeOnlyTheAccumulator
  intro i s t hi h
  have hr : returned i = .nothing := by
    obtain rfl | ⟨b, rfl⟩ | ⟨bytes, rfl⟩ := hi <;> rfl
  obtain ⟨c, rfl⟩ := exists_eq_setCrc_of_returned hr h
  exact ⟨sameEncoder_setCrc s c, sameDecoder_setCrc s c, sameHost_setCrc s c⟩

/-- Settles O28: such a row latches a result of the encoder. -/
theorem encoderRowsChangeOnlyTheEncoder : Obligations.EncoderRowsChangeOnlyTheEncoder := by
  unfold Obligations.EncoderRowsChangeOnlyTheEncoder
  intro i s t r hr h
  obtain rfl := eq_latchEnc_of_returned hr h
  exact ⟨latchEnc_crc s r, sameDecoder_latchEnc s r, sameHost_latchEnc s r⟩

/-- Settles O40: such a row latches a result of the decoder. -/
theorem decoderRowsChangeOnlyTheDecoder : Obligations.DecoderRowsChangeOnlyTheDecoder := by
  unfold Obligations.DecoderRowsChangeOnlyTheDecoder
  intro i s t r hr h
  obtain ⟨rx, -, rfl⟩ := exists_eq_latchDec_of_returned hr h
  exact ⟨latchDec_crc s rx r, sameEncoder_latchDec s rx r, sameHost_latchDec s rx r⟩

/-! ### Statuses -/

/-- The codes a result of the encoder can leave (60_exceptions.md rule R150). -/
theorem statusCode_encResultStatus_cases (r : EncResult) :
    statusCode (encResultStatus r) = 0#3 ∨ statusCode (encResultStatus r) = 1#3 := by
  cases r with
  | ok frame => exact .inl rfl
  | invalidParameter => exact .inr rfl

/-- Settles O44: a latched result leaves its own status. -/
theorem operationsNeverLeaveAReservedStatus : Obligations.OperationsNeverLeaveAReservedStatus := by
  unfold Obligations.OperationsNeverLeaveAReservedStatus
  refine fun i s t h => ⟨fun r hr => ?enc, fun r hr => ?dec⟩
  case enc =>
    obtain rfl := eq_latchEnc_of_returned hr h
    rw [latchEnc_encStatus]
    exact statusCode_encResultStatus_cases r
  case dec =>
    obtain ⟨rx, -, rfl⟩ := exists_eq_latchDec_of_returned hr h
    rw [latchDec_decStatus]
    exact statusCode_decResultStatus_cases r

/-! ### The two views -/

/-- Reading the encoder back sees its registers alone (10_state.md rule R19). -/
theorem encView_of_sameEncoder {s t : State} (h : sameEncoder s t) : t.encView = s.encView := by
  obtain ⟨hstatus, htx⟩ := h
  rw [State.encView, State.encView, hstatus, htx]

/-- Reading the decoder back sees its registers alone (10_state.md rule R19). -/
theorem decView_of_sameDecoder {s t : State} (h : sameDecoder s t) : t.decView = s.decView := by
  obtain ⟨hstatus, haddr, hfunc, hexc, hcount, hreg⟩ := h
  rw [State.decView, State.decView, hstatus, haddr, hfunc, hexc, hcount, hreg]

/-- `TX` holds the frame that was latched, byte for byte (10_state.md rule R19). -/
theorem encView_latchEnc (s : State) (addr func : Byte) (startAddr quantity : Word) :
    (s.latchEnc (encodeRead addr func startAddr quantity)).encView = some (encodeRead addr func startAddr quantity) := by
  obtain ⟨-, -, hr⟩ | ⟨-, hr⟩ := encodeRead_cases addr func startAddr quantity <;> rw [hr] <;> rfl

/-- Settles O41: a latched result is read back from its unit, and the other unit's registers are as before. -/
theorem theTwoViewsAgree : Obligations.TheTwoViewsAgree := by
  unfold Obligations.TheTwoViewsAgree
  refine fun i s t h => ⟨fun r hr => ?enc, fun r hr => ?dec, fun hr => ?nothing⟩
  case enc =>
    obtain rfl := eq_latchEnc_of_returned hr h
    obtain ⟨addr, func, startAddr, quantity, rfl⟩ := exists_encodeRead_of_returned hr
    exact ⟨encView_latchEnc s addr func startAddr quantity, decView_of_sameDecoder (sameDecoder_latchEnc s _)⟩
  case dec =>
    obtain ⟨rx, rfl, rfl⟩ := exists_eq_latchDec_of_returned hr h
    exact ⟨decView_latchDec s rx, encView_of_sameEncoder (sameEncoder_latchDec s rx _)⟩
  case nothing =>
    obtain ⟨c, rfl⟩ := exists_eq_setCrc_of_returned hr h
    exact ⟨encView_of_sameEncoder (sameEncoder_setCrc s c), decView_of_sameDecoder (sameDecoder_setCrc s c)⟩

/-! ### Results from the operands alone -/

/-- What the encoder's registers hold after a latch does not depend on the state before it (10_state.md rule R24). -/
theorem latchEnc_sameEncoder (s s' : State) (r : EncResult) : sameEncoder (s.latchEnc r) (s'.latchEnc r) := by
  cases r with
  | ok frame => exact ⟨rfl, rfl⟩
  | invalidParameter => exact ⟨rfl, rfl⟩

/-- What the decoder's registers hold after a latch does not depend on the state before it (10_state.md rule R24). -/
theorem latchDec_sameDecoder (s s' : State) (rx : List Byte) (r : DecResult) :
    sameDecoder (s.latchDec rx r) (s'.latchDec rx r) := by
  cases r with
  | _ => exact ⟨rfl, rfl, rfl, rfl, rfl, rfl⟩

/-- Of the rows that return nothing, `CRC.UPDATE` alone reads the accumulator (10_state.md rule R24). -/
theorem exists_exec_eq_setCrc {i : Instr} (hr : returned i = .nothing) (hi : ∀ b, i ≠ .crcUpdate b) :
    ∃ c, ∀ s : State, exec i s = .next (s.setCrc c) := by
  cases i with
  | crcInit => exact ⟨_, exec_crcInit⟩
  | crcUpdate b => exact absurd rfl (hi b)
  | crcMsg bytes => exact ⟨_, exec_crcMsg bytes⟩
  | _ => cases hr

/-- Settles O42: each unit's registers are written from the result, and only `CRC.UPDATE` computes it from a register. -/
theorem resultsDependOnlyOnOperands : Obligations.ResultsDependOnlyOnOperands := by
  unfold Obligations.ResultsDependOnlyOnOperands
  refine fun i s s' t t' h h' => ⟨fun r hr => ?enc, fun r hr => ?dec, fun hr hc => ?nothing⟩
  case enc =>
    obtain rfl := eq_latchEnc_of_returned hr h
    obtain rfl := eq_latchEnc_of_returned hr h'
    exact latchEnc_sameEncoder s s' r
  case dec =>
    obtain ⟨rx, rfl, hexec⟩ := exec_of_returned_dec hr
    rw [hexec] at h h'
    obtain ⟨-, rfl⟩ := decodeInto_eq_next h
    obtain ⟨-, rfl⟩ := decodeInto_eq_next h'
    exact latchDec_sameDecoder s s' rx _
  case nothing =>
    by_cases hi : ∀ b, i ≠ .crcUpdate b
    · obtain ⟨c, hexec⟩ := exists_exec_eq_setCrc hr hi
      rw [hexec] at h h'
      rw [← Host.Outcome.next.inj h, ← Host.Outcome.next.inj h', setCrc_crc, setCrc_crc]
    · obtain ⟨b, rfl⟩ := not_forall_not.1 hi
      rw [exec_crcUpdate] at h h'
      rw [← Host.Outcome.next.inj h, ← Host.Outcome.next.inj h', setCrc_crc, setCrc_crc, hc.resolve_right hi]

/-! ### Running an instruction twice -/

theorem latchEnc_latchEnc (s : State) (r : EncResult) : (s.latchEnc r).latchEnc r = s.latchEnc r := by
  cases r with
  | _ => rfl

theorem latchDec_latchDec (s : State) (rx : List Byte) (r : DecResult) : (s.latchDec rx r).latchDec rx r = s.latchDec rx r := by
  cases r with
  | _ => rfl

/-- Every row but `CRC.UPDATE` writes the same again (20_memory.md rule R39). -/
theorem exec_idempotent {i : Instr} {s t : State} (hi : ∀ b, i ≠ .crcUpdate b) (h : exec i s = .next t) : exec i t = .next t := by
  cases hr : returned i with
  | nothing =>
    obtain ⟨c, hexec⟩ := exists_exec_eq_setCrc hr hi
    rw [hexec] at h ⊢
    rw [← Host.Outcome.next.inj h]
    rfl
  | enc r =>
    obtain rfl := eq_latchEnc_of_returned hr h
    rw [exec_of_returned_enc hr, latchEnc_latchEnc]
  | dec r =>
    obtain ⟨rx, rfl, hexec⟩ := exec_of_returned_dec hr
    rw [hexec] at h ⊢
    obtain ⟨hcap, rfl⟩ := decodeInto_eq_next h
    rw [decodeInto_next _ rx (by rwa [latchDec_params]), latchDec_latchDec]

/-- Settles O43: folding the byte 0 into the accumulator of the reset state twice gives two values. -/
theorem operationsAreIdempotent : Obligations.OperationsAreIdempotent := by
  unfold Obligations.OperationsAreIdempotent
  refine ⟨fun i s t => exec_idempotent, 0#8, State.reset, _, exec_crcUpdate 0#8 State.reset, fun h => ?_⟩
  have hcrc := congrArg State.crc (Host.Outcome.next.inj h)
  exact absurd hcrc (by decide +kernel)

/-! ### Steps -/

/-- Something presented that stands for a row is taken and run (20_memory.md rule R41). -/
theorem step_present {s : State} {p : Presented} {rest : List HostEvent} {i : Instr} (hp : s.pending = .present p :: rest)
    (hd : decode p = .ok i) : step s = exec i { s with pending := rest } := by
  simp only [step, takeEvent_cons s _ rest hp, hd]

/-- Something presented that stands for no row is refused (41_encode.md rule R87). -/
theorem step_present_undecodable {s : State} {p : Presented} {rest : List HostEvent} {e : DecodeError}
    (hp : s.pending = .present p :: rest) (hd : decode p = .error e) : step s = .refused (.undecodable e) := by
  simp only [step, takeEvent_cons s _ rest hp, hd]

/-- The reset event is taken and puts the block's registers at their reset values (70_reset_and_hazards.md rule R175). -/
theorem step_reset {s : State} {rest : List HostEvent} (hp : s.pending = .reset :: rest) :
    step s = .next ({ s with pending := rest } : State).resetBlock := by
  simp only [step, takeEvent_cons s _ rest hp]

/-- Settles O7: the decoder names the instruction, and `exec` runs it. -/
theorem stepRunsThePresentedInstruction : Obligations.StepRunsThePresentedInstruction := by
  unfold Obligations.StepRunsThePresentedInstruction
  exact fun s p rest i => step_present

/-- Settles O8: with nothing presented there is no event to take. -/
theorem stepStopsOnNothingToRun : Obligations.StepStopsOnNothingToRun := by
  unfold Obligations.StepStopsOnNothingToRun
  refine ⟨fun s hp => ?_, fun s p rest e => step_present_undecodable⟩
  rw [step, takeEvent_nil s hp]

/-- Settles O9: a step on the event is the reset of the block, after which every operation completes as from any state. -/
theorem resetEventRestoresTheTable : Obligations.ResetEventRestoresTheTable := by
  unfold Obligations.ResetEventRestoresTheTable
  intro s rest hp
  exact ⟨_, step_reset hp, rfl, rfl, rfl, allAbsent_absentFile 8, rfl, rfl, rfl, rfl, allAbsent_absentFile 127, rfl, rfl,
    ⟨_, exec_crcInit _⟩, fun b => ⟨_, exec_crcUpdate b _⟩,
    fun slaveId func startAddr quantity => ⟨_, exec_encRead slaveId func startAddr quantity _⟩,
    fun rx hcap => ⟨_, exec_decResp_of_decodeResponse _ hcap rfl⟩⟩

/-- Settles O10: the reset state is written out. -/
theorem resetStateHoldsTheTable : Obligations.ResetStateHoldsTheTable := by
  unfold Obligations.ResetStateHoldsTheTable
  exact ⟨rfl, rfl, rfl, allAbsent_absentFile 8, rfl, rfl, rfl, rfl, allAbsent_absentFile 127, rfl⟩

/-- Settles O13: both kinds of event are taken from the head of the queue, and neither a reset nor an instruction touches what is left. -/
theorem stepTakesOneEvent : Obligations.StepTakesOneEvent := by
  unfold Obligations.StepTakesOneEvent
  intro s t h
  obtain ⟨rest, hp, rfl⟩ | ⟨p, rest, i, hp, -, hexec⟩ := step_cases h
  · exact ⟨rfl, .reset, hp⟩
  · obtain ⟨hparams, hpending⟩ := exec_sameHost hexec
    exact ⟨hparams, .present p, hpending ▸ hp⟩

/-! ### The invariant -/

/-- The reset values are sound, whatever the parameters and the queue (10_state.md rule R25). -/
theorem resetBlock_inv (s : State) : s.resetBlock.Inv :=
  ⟨.inr (.inr ⟨rfl, allAbsent_absentFile 8⟩),
    .inr (.inr ⟨.inr (.inr (.inr rfl)), rfl, rfl, rfl, rfl, allAbsent_absentFile 127⟩)⟩

/-- Soundness of the encoder is about its registers alone. -/
theorem encoderSound_of_sameEncoder {s t : State} (h : sameEncoder s t) (hs : s.encoderSound) : t.encoderSound := by
  obtain ⟨hstatus, htx⟩ := h
  rwa [State.encoderSound, hstatus, htx]

/-- Soundness of the decoder is about its registers alone. -/
theorem decoderSound_of_sameDecoder {s t : State} (h : sameDecoder s t) (hs : s.decoderSound) : t.decoderSound := by
  obtain ⟨hstatus, haddr, hfunc, hexc, hcount, hreg⟩ := h
  rwa [State.decoderSound, hstatus, haddr, hfunc, hexc, hcount, hreg]

/-- A latched answer of `encodeRead` is a legal request with its CRC, or no value at all (41_encode.md rule R88). -/
theorem latchEnc_encoderSound (s : State) (addr func : Byte) (startAddr quantity : Word) :
    (s.latchEnc (encodeRead addr func startAddr quantity)).encoderSound := by
  obtain ⟨ha, hq, hr⟩ | ⟨-, hr⟩ := encodeRead_cases addr func startAddr quantity
  · obtain ⟨ha1, ha247⟩ := (slaveInRange_iff addr).1 ha
    obtain ⟨hq1, hq125⟩ := (quantityInRange_iff quantity).1 hq
    rw [hr, latchEnc_ok]
    exact .inl ⟨rfl, addr, func, startAddr, quantity, ha1, ha247, hq1, hq125, rfl⟩
  · rw [hr, latchEnc_invalid]
    exact .inr (.inl ⟨rfl, allAbsent_absentFile 8⟩)

/-- A file that was written holds exactly as many values as were written. -/
theorem filledTo_fileOf {α : Type} (n : Nat) (l : List α) : filledTo (fileOf n l) l.length := by
  intro i
  rw [Fin.getElem_fin, getElem_fileOf]
  by_cases h : i.val < l.length <;> simp [h]

/-- A failure that records no data is sound (10_state.md rule R19). -/
theorem failDecoder_decoderSound (s : State) (st : Status)
    (hst : statusCode st = 2#3 ∨ statusCode st = 3#3 ∨ statusCode st = 5#3 ∨ statusCode st = 7#3) :
    (s.failDecoder st).decoderSound :=
  .inr (.inr ⟨hst, rfl, rfl, rfl, rfl, allAbsent_absentFile 127⟩)

/-- `REG_COUNT` is wide enough for every number of words that fits `REG` (10_state.md rule R17). -/
theorem toNat_regCount {k : Nat} (h : k ≤ 127) : (BitVec.ofNat 7 k).toNat = k :=
  Nat.mod_eq_of_lt (Nat.lt_succ_of_le h)

/-- A latched answer of `decodeResponse` leaves values exactly where its status says (10_state.md rules R15 to R19). -/
theorem latchDec_decoderSound (s : State) (rx : List Byte) : (s.latchDec rx (decodeResponse rx)).decoderSound := by
  obtain ⟨-, hr⟩ | ⟨-, -, hr⟩ | ⟨hlen, -, he, hr⟩ | ⟨-, -, -, -, hr⟩ | ⟨-, -, he, -, hr⟩ := decodeResponse_cases rx
  · rw [hr]
    exact failDecoder_decoderSound s .shortFrame (by decide)
  · rw [hr]
    exact failDecoder_decoderSound s .crcMismatch (by decide)
  · rw [exceptionBitSet_eq] at he
    have haddr : rx[0]?.isSome := by rw [getElem?_eq_byteAt rx 0 (by omega)]; rfl
    rw [hr]
    exact .inr (.inl ⟨rfl, haddr, rfl, ⟨_, getElem?_eq_byteAt rx 1 (by omega), he⟩, rfl, allAbsent_absentFile 127⟩)
  · rw [hr]
    exact failDecoder_decoderSound s .malformedPayload (by decide)
  · rw [exceptionBitSet_eq] at he
    have hcount := toNat_regCount (length_le_of_decodeResponse_eq_ok hr)
    rw [hr]
    refine .inl ⟨rfl, rfl, rfl, ⟨_, rfl, he⟩, _, rfl, ?_⟩
    rw [hcount]
    exact filledTo_fileOf 127 _

/-- Every instruction keeps the invariant (10_state.md rule R19). -/
theorem exec_inv {i : Instr} {s t : State} (hs : s.Inv) (h : exec i s = .next t) : t.Inv := by
  obtain ⟨henc, hdec⟩ := hs
  obtain ⟨c, rfl⟩ | ⟨addr, func, startAddr, quantity, rfl⟩ | ⟨rx, -, rfl⟩ := exec_cases h
  · exact ⟨encoderSound_of_sameEncoder (sameEncoder_setCrc s c) henc, decoderSound_of_sameDecoder (sameDecoder_setCrc s c) hdec⟩
  · exact ⟨latchEnc_encoderSound s addr func startAddr quantity, decoderSound_of_sameDecoder (sameDecoder_latchEnc s _) hdec⟩
  · exact ⟨encoderSound_of_sameEncoder (sameEncoder_latchDec s rx _) henc, latchDec_decoderSound s rx⟩

/-- Settles O11: the reset state is the block reset in itself. -/
theorem resetMeetsTheInvariant : Obligations.ResetMeetsTheInvariant := by
  unfold Obligations.ResetMeetsTheInvariant
  exact resetBlock_inv State.reset

/-- Settles O12: taking an event touches no register, and both the reset and every instruction give a sound state. -/
theorem stepKeepsTheInvariant : Obligations.StepKeepsTheInvariant := by
  unfold Obligations.StepKeepsTheInvariant
  intro s t hs h
  obtain ⟨rest, -, rfl⟩ | ⟨p, rest, i, -, -, hexec⟩ := step_cases h
  · exact resetBlock_inv _
  · exact exec_inv (s := { s with pending := rest }) hs hexec

end Sys2Proof.Machine
end

section
/-! PROOFS. The request encoder, continued (41_encode.md section 3; 30_encoding.md rules R48, R49 and R63): the frames `encodeRead` produces, and
the rows that produce them. -/

namespace Sys2Proof.Machine

/-- A frame of `encodeRead` is a legal request followed by its own CRC (41_encode.md rule R85). -/
theorem of_encodeRead_eq_ok {addr func : Byte} {startAddr quantity : Word} {f : List Byte}
    (h : encodeRead addr func startAddr quantity = .ok f) :
    slaveInRange addr = true ∧ quantityInRange quantity = true ∧ f = withOwnCrc (requestBody addr func startAddr quantity) := by
  obtain ⟨ha, hq, hr⟩ | ⟨-, hr⟩ := encodeRead_cases addr func startAddr quantity
  · rw [hr] at h
    exact ⟨ha, hq, (EncResult.ok.inj h).symm⟩
  · rw [hr] at h
    cases h

/-- A legal quantity stands in its low byte (41_encode.md rule R88). -/
theorem quantity_bytes {q : Word} (h : q.toNat ≤ 125) : hi8 q = 0x00#8 ∧ (lo8 q).toNat = q.toNat := by
  refine ⟨BitVec.eq_of_toNat_eq ?_, ?_⟩
  · rw [hi8, BitVec.extractLsb'_toNat, Nat.shiftRight_eq_div_pow, BitVec.toNat_ofNat]
    omega
  · rw [lo8, BitVec.extractLsb'_toNat, Nat.shiftRight_zero]
    omega

/-- The operands stand in a request frame by position (30_encoding.md rules R48 and R53). -/
theorem operands_of_encodeRead_eq_ok {addr func : Byte} {startAddr quantity : Word} {f : List Byte}
    (h : encodeRead addr func startAddr quantity = .ok f) :
    addr = byteAt f 0 ∧ func = byteAt f 1 ∧ startAddr = be16 (byteAt f 2) (byteAt f 3)
      ∧ quantity = be16 (byteAt f 4) (byteAt f 5) := by
  obtain ⟨-, -, rfl⟩ := of_encodeRead_eq_ok h
  exact ⟨rfl, rfl, (be16_hi8_lo8 startAddr).symm, (be16_hi8_lo8 quantity).symm⟩

/-- Settles O25: the frame is written out, so its bytes are read off; two calls with the same frame have the operands it holds. -/
theorem encReadFramesAreRecoverable : Obligations.EncReadFramesAreRecoverable := by
  unfold Obligations.EncReadFramesAreRecoverable
  refine ⟨fun slaveId func startAddr quantity f h => ?_, fun a a' fc fc' st st' q q' frame h h' => ?_⟩
  · have hops := operands_of_encodeRead_eq_ok h
    obtain ⟨ha, hq, rfl⟩ := of_encodeRead_eq_ok h
    obtain ⟨ha1, ha247⟩ := (slaveInRange_iff slaveId).1 ha
    obtain ⟨hq1, hq125⟩ := (quantityInRange_iff quantity).1 hq
    obtain ⟨hhi, hlo⟩ := quantity_bytes hq125
    rw [← hlo] at hq1 hq125
    exact ⟨rfl, ha1, ha247, hhi, hq1, hq125, le16_lo8_hi8 _, crc16_withOwnCrc _, hops⟩
  · obtain ⟨rfl, rfl, rfl, rfl⟩ := operands_of_encodeRead_eq_ok h
    obtain ⟨rfl, rfl, rfl, rfl⟩ := operands_of_encodeRead_eq_ok h'
    exact ⟨rfl, rfl, rfl, rfl⟩

/-- Settles O26: both return the same answer of `encodeRead`. -/
theorem encRirIsEncReadWithFunctionFour : Obligations.EncRirIsEncReadWithFunctionFour := by
  unfold Obligations.EncRirIsEncReadWithFunctionFour
  exact fun slaveId startAddr quantity s => ⟨_, exec_of_returned_enc rfl s, exec_of_returned_enc rfl s⟩

/-- A row that returns an answer of `encodeRead` on legal operands leaves the frame in `TX` (41_encode.md rule R86). -/
theorem exec_of_returned_legal {i : Instr} {addr func : Byte} {startAddr quantity : Word}
    (hr : returned i = .enc (encodeRead addr func startAddr quantity)) (ha : slaveInRange addr = true)
    (hq : quantityInRange quantity = true) (s : State) :
    ∃ t, exec i s = .next t ∧ t.encStatus = 0#3
      ∧ t.tx.toList = (withOwnCrc (requestBody addr func startAddr quantity)).map some := by
  refine ⟨_, exec_of_returned_enc hr s, ?_⟩
  rw [encodeRead_ok addr func startAddr quantity ha hq]
  exact ⟨rfl, rfl⟩

/-- Settles O27: the rows return what `ENC.READ` returns, and in a well-formed frame the CRC field is the encoder's own. -/
theorem requestRowsProduceTheirFrame : Obligations.RequestRowsProduceTheirFrame := by
  unfold Obligations.RequestRowsProduceTheirFrame
  refine ⟨fun addr func startAddr quantity crc s => ⟨_, exec_of_returned_enc rfl s, exec_of_returned_enc rfl s⟩,
    fun addr startAddr quantity crc s => ⟨_, exec_of_returned_enc rfl s, exec_of_returned_enc rfl s⟩, fun i bytes s hi hwf => ?_⟩
  cases i with
  | req addr func startAddr quantity crc =>
    simp only [Instr.wf, Bool.and_eq_true, beq_iff_eq] at hwf
    obtain ⟨⟨⟨-, ha⟩, hq⟩, rfl⟩ := hwf
    obtain rfl := Presented.request.inj hi
    exact exec_of_returned_legal rfl ha hq s
  | reqRir addr startAddr quantity crc =>
    simp only [Instr.wf, Bool.and_eq_true, beq_iff_eq] at hwf
    obtain ⟨⟨ha, hq⟩, rfl⟩ := hwf
    obtain rfl := Presented.request.inj hi
    exact exec_of_returned_legal rfl ha hq s
  | _ => cases hi

end Sys2Proof.Machine
end

section
/-! PROOFS. The response decoder, continued (42_decode.md sections 1, 3 and 4; 30_encoding.md rules R50 and R51): the capacity, data responses
built from words, and the rows that run `DEC.RESP` on their frame. -/

namespace Sys2Proof.Machine

/-! ### Capacity and length -/

/-- Three header bytes, what follows them, and a CRC field (30_encoding.md rules R50 and R51). -/
theorem length_responseFields (addr func third : Byte) (payload : List Byte) (crc : Word) :
    ([addr, func, third] ++ payload ++ crcTail crc).length = 5 + payload.length := by
  simp only [List.length_append, List.length_cons, List.length_nil, length_crcTail]
  omega

/-- A response row is `DEC.RESP` on the frame it encodes to (assumption 4). -/
theorem exec_of_encode_response {i : Instr} {rx : List Byte} (h : encode i = .response rx) (s : State) :
    exec i s = exec (.decResp rx) s := by
  cases i with
  | rspData addr func bc payload crc => obtain rfl := Presented.response.inj h; rfl
  | rspExc addr func exc crc => obtain rfl := Presented.response.inj h; rfl
  | _ => cases h

/-- `DEC.RESP` on more bytes than fit (42_decode.md rule R95). -/
theorem exec_decResp_refused {rx : List Byte} {s : State} (h : s.params.rxCapacity < rx.length) :
    exec (.decResp rx) s = .refused (.rxOverCapacity rx.length) :=
  if_neg (Nat.not_le.2 h)

/-- Settles O29: a data response is as long as its byte count says, at most 260 bytes. -/
theorem decRespAcceptsUpToCapacity : Obligations.DecRespAcceptsUpToCapacity := by
  unfold Obligations.DecRespAcceptsUpToCapacity
  refine ⟨fun rx s => ⟨fun h => ⟨_, exec_decResp_of_decodeResponse s h rfl⟩, exec_decResp_refused⟩,
    fun i rx s h => exec_of_encode_response h s, fun rx addr func regs h => ?_⟩
  obtain ⟨hlen, -⟩ := of_decodeResponse_eq_ok h
  have hcap : State.reset.params.rxCapacity = 260 := rfl
  exact ⟨hlen, by omega⟩

/-- Bytes that decode to `Ok` carry a function code with bit 7 clear (42_decode.md rule R96). -/
theorem func_of_decodeResponse_eq_ok {rx : List Byte} {addr func : Byte} {regs : List Word}
    (h : decodeResponse rx = .ok addr func regs) : func.getLsbD 7 = false := by
  obtain ⟨-, -, -, rfl, -⟩ := of_decodeResponse_eq_ok h
  rw [← exceptionBitSet_eq]
  obtain ⟨-, hr⟩ | ⟨-, -, hr⟩ | ⟨-, -, -, hr⟩ | ⟨-, -, he, -, -⟩ | ⟨-, -, he, -, -⟩ := decodeResponse_cases rx
  iterate 3 rw [hr] at h; cases h
  all_goals exact he

/-- Settles O39: the byte count is even, at most 255, and the length of the payload. -/
theorem decodedFramesHaveTheirLength : Obligations.DecodedFramesHaveTheirLength := by
  unfold Obligations.DecodedFramesHaveTheirLength
  intro rx addr func regs h
  refine ⟨?_, length_le_of_decodeResponse_eq_ok h, func_of_decodeResponse_eq_ok h⟩
  obtain ⟨hlen, heven, -, -, rfl⟩ := of_decodeResponse_eq_ok h
  rw [List.length_map, List.length_range]
  omega

/-- Settles O38: six bytes of a request are three header bytes and a payload of odd length 3. -/
theorem requestsNeverDecodeToOk : Obligations.RequestsNeverDecodeToOk := by
  unfold Obligations.RequestsNeverDecodeToOk
  intro slaveId func startAddr quantity f h
  obtain ⟨-, -, rfl⟩ := of_encodeRead_eq_ok h
  have hshape : ¬ ([lo8 startAddr, hi8 quantity, lo8 quantity].length = (hi8 startAddr).toNat ∧ (hi8 startAddr).toNat % 2 = 0) := by
    rintro ⟨hlen, heven⟩
    have hthree : (hi8 startAddr).toNat = 3 := hlen.symm
    omega
  have hr := decodeResponse_withOwnCrc slaveId func (hi8 startAddr) [lo8 startAddr, hi8 quantity, lo8 quantity]
  rwa [if_pos hshape] at hr

/-! ### Data responses built from words -/

/-- The bytes of word `i` of a payload (30_encoding.md rules R32 and R50). -/
theorem byteAt_wordsToBytes (words : List Word) (i : Nat) (h : i < words.length) :
    byteAt (wordsToBytes words) (2 * i) = hi8 words[i] ∧ byteAt (wordsToBytes words) (2 * i + 1) = lo8 words[i] := by
  induction words generalizing i with
  | nil => cases h
  | cons w words ih =>
    cases i with
    | zero => exact ⟨rfl, rfl⟩
    | succ i => exact ih i (Nat.lt_of_succ_lt_succ h)

/-- The words read from a frame are the words its payload was made of (42_decode.md rule R103). -/
theorem map_registerWord_wordsToBytes (addr func third : Byte) (words : List Word) (tail : List Byte) :
    (List.range words.length).map (registerWord ([addr, func, third] ++ wordsToBytes words ++ tail)) = words := by
  refine List.ext_getElem (by simp) fun i _ hi => ?_
  obtain ⟨hhi, hlo⟩ := byteAt_wordsToBytes words i hi
  have hlen := length_wordsToBytes words
  have hbyte : ∀ j, j < 2 * words.length →
      byteAt ([addr, func, third] ++ wordsToBytes words ++ tail) (3 + j) = byteAt (wordsToBytes words) j := fun j hj => by
    rw [List.append_assoc, ← byteAt_append_left (wordsToBytes words) tail j (by omega)]
    exact byteAt_append_right [addr, func, third] _ j
  have hsecond : 4 + 2 * i = 3 + (2 * i + 1) := by omega
  rw [List.getElem_map, List.getElem_range, registerWord, hsecond, hbyte _ (by omega), hbyte _ (by omega), hhi, hlo, be16_hi8_lo8]

/-- A data response built from at most 127 words decodes to them (42_decode.md rule R104 (c)). -/
theorem decodeResponse_dataResponse (addr func : Byte) (words : List Word) (hf : func.getLsbD 7 = false)
    (hlen : words.length ≤ 127) :
    decodeResponse (withOwnCrc ([addr, func, BitVec.ofNat 8 (2 * words.length)] ++ wordsToBytes words)) = .ok addr func words := by
  have hcount : (BitVec.ofNat 8 (2 * words.length)).toNat = 2 * words.length := Nat.mod_eq_of_lt (by omega)
  have hshape : (wordsToBytes words).length = 2 * words.length ∧ 2 * words.length % 2 = 0 := ⟨length_wordsToBytes words, by omega⟩
  have hhalf : 2 * words.length / 2 = words.length := by omega
  rw [decodeResponse_withOwnCrc, hf, hcount, if_neg Bool.false_ne_true, if_neg (not_not.2 hshape), hhalf, withOwnCrc,
    map_registerWord_wordsToBytes]

/-- Settles O32: the frame decodes to its own header and words, which are what is latched. -/
theorem dataResponseRoundTrip : Obligations.DataResponseRoundTrip := by
  unfold Obligations.DataResponseRoundTrip
  intro addr func regs s hf hlen hcap body
  exact exec_decResp_withOwnCrc s (by rwa [length_wordsToBytes]) (decodeResponse_dataResponse addr func regs hf hlen)

/-- A payload of even length is made of words (30_encoding.md rule R50). -/
theorem exists_wordsToBytes : ∀ payload : List Byte, payload.length % 2 = 0 → ∃ words, payload = wordsToBytes words
  | [], _ => ⟨[], rfl⟩
  | [_], h => by cases h
  | a :: b :: rest, h => by
    obtain ⟨words, rfl⟩ := exists_wordsToBytes rest (by simp only [List.length_cons] at h; omega)
    exact ⟨be16 a b :: words, by rw [wordsToBytes, hi8_be16, lo8_be16]⟩

/-! ### The response rows -/

/-- A response row whose frame fits latches what its frame decodes to (assumption 4). -/
theorem exec_of_encode_fields {i : Instr} {addr func third : Byte} {payload : List Byte} {crc : Word} {s : State}
    (h : encode i = .response ([addr, func, third] ++ payload ++ crcTail crc)) (hcap : 5 + payload.length ≤ s.params.rxCapacity) :
    exec i s = .next (s.latchDec ([addr, func, third] ++ payload ++ crcTail crc)
      (decodeResponse ([addr, func, third] ++ payload ++ crcTail crc))) := by
  rw [← length_responseFields addr func third payload crc] at hcap
  rw [exec_of_encode_response h, exec_decResp_of_decodeResponse s hcap rfl]

/-- A frame with a wrong CRC field (42_decode.md rule R96). -/
theorem decodeResponse_wrongCrc (addr func third : Byte) (payload : List Byte) {crc : Word}
    (h : crc ≠ crc16 ([addr, func, third] ++ payload)) :
    decodeResponse ([addr, func, third] ++ payload ++ crcTail crc) = .crcMismatch :=
  (decodeResponse_fields addr func third payload crc).trans (if_pos h)

/-- Settles O36: the CRC field and then the byte count decide, and an even payload is made of words. -/
theorem dataResponseRowIsDecoded : Obligations.DataResponseRowIsDecoded := by
  unfold Obligations.DataResponseRowIsDecoded
  intro addr func bc payload crc s hcap c
  have hf : (responseFunc false func).getLsbD 7 = false := responseFunc_bit7 false func
  refine ⟨_, exec_of_encode_fields (i := .rspData addr func bc payload crc) rfl hcap, fun hc => ?wrong, fun hc hshape => ?malformed,
    fun hc hlen heven => ?ok⟩
  case wrong =>
    rw [decodeResponse_wrongCrc addr (responseFunc false func) bc payload hc]
    exact ⟨rfl, rfl⟩
  case malformed =>
    have hr := decodeResponse_withOwnCrc addr (responseFunc false func) bc payload
    rw [hf, if_neg Bool.false_ne_true, if_pos (by omega)] at hr
    rw [hc]
    exact hr ▸ ⟨rfl, rfl⟩
  case ok =>
    obtain ⟨words, rfl⟩ := exists_wordsToBytes payload (hlen ▸ heven)
    rw [length_wordsToBytes] at hlen
    have hbound : words.length ≤ 127 := by omega
    have hbc : bc = BitVec.ofNat 8 (2 * words.length) := BitVec.eq_of_toNat_eq (by rw [BitVec.toNat_ofNat]; omega)
    have hhalf : 2 * words.length / 2 = words.length := by omega
    have hr := decodeResponse_dataResponse addr (responseFunc false func) words hf hbound
    rw [← hbc] at hr
    rw [hc, length_wordsToBytes, hhalf]
    exact hr ▸ ⟨rfl, rfl, rfl, rfl, by rw [latchDec_ok, writeRegisters_reg, presentEntries_fileOf words hbound]⟩

/-- Settles O37: the CRC field decides, since bit 7 of byte 1 is set. -/
theorem exceptionRowIsDecoded : Obligations.ExceptionRowIsDecoded := by
  unfold Obligations.ExceptionRowIsDecoded
  intro addr func exc crc s hcap c
  refine ⟨_, exec_of_encode_fields (i := .rspExc addr func exc crc) (payload := []) rfl hcap, fun hc => ?right, fun hc => ?wrong⟩
  case right =>
    have hr := decodeResponse_withOwnCrc addr (responseFunc true func) exc []
    rw [responseFunc_bit7, if_pos rfl] at hr
    rw [hc]
    exact hr ▸ ⟨rfl, rfl, rfl, rfl, rfl, allAbsent_absentFile 127⟩
  case wrong =>
    rw [decodeResponse_wrongCrc addr (responseFunc true func) exc [] hc]
    exact ⟨rfl, rfl, rfl, rfl, rfl, allAbsent_absentFile 127⟩

end Sys2Proof.Machine
end

section
/-! PROOFS. The register map (43_environment.md rules R128 to R134): composing two words, and the requests of a cycle. -/

namespace Sys2Proof.Machine

/-- The high word stands above the low one (43_environment.md rule R128). -/
theorem toNat_combine32 (high low : Word) : (combine32 high low).toNat = high.toNat * 65536 + low.toNat := by
  have hor : high.toNat <<< 16 ||| low.toNat = high.toNat <<< 16 + low.toNat :=
    (Nat.shiftLeft_add_eq_or_of_lt low.isLt high.toNat).symm
  have hhigh : high.toNat <<< 16 % 2 ^ 32 = high.toNat <<< 16 :=
    Nat.mod_eq_of_lt (by rw [Nat.shiftLeft_eq]; omega)
  simp only [combine32, BitVec.toNat_or, BitVec.toNat_shiftLeft, BitVec.toNat_setWidth]
  rw [Nat.mod_eq_of_lt (by omega : high.toNat < 2 ^ 32), Nat.mod_eq_of_lt (by omega : low.toNat < 2 ^ 32), hhigh, hor,
    Nat.shiftLeft_eq]

/-- Settles O46: two's complement of 32 bits subtracts 2^32 from the upper half. -/
theorem twoWordsComposeHighWordFirst : Obligations.TwoWordsComposeHighWordFirst := by
  unfold Obligations.TwoWordsComposeHighWordFirst
  intro high low
  have hnat := toNat_combine32 high low
  refine ⟨hnat, ?_⟩
  rw [BitVec.toInt_eq_toNat_cond, hnat]
  split <;> split <;> omega

/-- Every entry spans one or two registers (43_environment.md rule R131). -/
theorem span_cases (q : Quantity) : (registerMap q).span = 1 ∨ (registerMap q).span = 2 := by
  cases q <;> decide

/-- A request asks for as many registers as its entry spans (43_environment.md rules R130 and R131). -/
theorem toNat_requestFor_quantity (slaveId : Byte) (q : Quantity) :
    (requestFor slaveId q).quantity.toNat = (registerMap q).span := by
  obtain h | h := span_cases q <;> rw [requestFor, h] <;> rfl

/-- The quantity of every request is legal (43_environment.md rule R131). -/
theorem quantityInRange_requestFor (slaveId : Byte) (q : Quantity) : quantityInRange (requestFor slaveId q).quantity = true := by
  rw [quantityInRange_iff, toNat_requestFor_quantity]
  obtain h | h := span_cases q <;> omega

/-- Settles O47: the map is a finite table, and every span is a legal quantity. -/
theorem theRegisterMapIsTheCycle : Obligations.TheRegisterMapIsTheCycle := by
  unfold Obligations.TheRegisterMapIsTheCycle
  refine ⟨by decide, by decide, by decide, fun q => ⟨by cases q <;> decide, fun slaveId s h1 h247 => ?_⟩⟩
  obtain ⟨t, hexec, hstatus, -⟩ := exec_of_returned_legal (i := (requestFor slaveId q).instr) rfl
    ((slaveInRange_iff slaveId).2 ⟨h1, h247⟩) (quantityInRange_requestFor slaveId q) s
  exact ⟨t, hexec, hstatus⟩

end Sys2Proof.Machine
end

section
/-! PROOFS. The ResponseAssembler (43_environment.md rules R119 to R125): what each event does in each phase, and runs of time units and chunks.
A state of the assembler is written out as its phase and the next generation. -/

namespace Sys2Proof.Machine

section transitions

variable {cfg : AssemblerConfig} {generation quantity elapsed next : Nat} {buffer : List Byte} {quiet : Option Nat}

/-- Bytes that arrive while nothing is awaited (43_environment.md rule R123). -/
theorem assemblerStep_chunk_idle (cfg : AssemblerConfig) (next g : Nat) (bytes : List Byte) :
    assemblerStep cfg ⟨.idle, next⟩ (.chunk g bytes) = (⟨.idle, next⟩, .discarded) := rfl

/-- Bytes of another generation (43_environment.md rule R123). -/
theorem assemblerStep_chunk_stale {g : Nat} (bytes : List Byte) (hg : g ≠ generation) :
    assemblerStep cfg ⟨.awaiting generation quantity buffer quiet elapsed, next⟩ (.chunk g bytes) =
      (⟨.awaiting generation quantity buffer quiet elapsed, next⟩, .discarded) :=
  if_neg hg

/-- A caller's timeout (43_environment.md rule R124). -/
theorem assemblerStep_callerTimeout :
    assemblerStep cfg ⟨.awaiting generation quantity buffer quiet elapsed, next⟩ .callerTimeout = (⟨.idle, next⟩, .timedOut) := rfl

/-- A Transport error under a request (43_environment.md rules R116 and R142). -/
theorem assemblerStep_transportError :
    assemblerStep cfg ⟨.awaiting generation quantity buffer quiet elapsed, next⟩ .transportError =
      (⟨.idle, next⟩, .transportFailed) := rfl

/-- The deadline is reached (43_environment.md rule R124). -/
theorem assemblerStep_tick_deadline (h : cfg.deadline ≤ elapsed + 1) :
    assemblerStep cfg ⟨.awaiting generation quantity buffer quiet elapsed, next⟩ .tick = (⟨.idle, next⟩, .timedOut) :=
  if_pos h

/-- The quiet window elapses where it decides (43_environment.md rules R120 and R125). -/
theorem assemblerStep_tick_window {w : Nat} (hd : elapsed + 1 < cfg.deadline) (ha : windowApplies cfg quantity buffer = true)
    (hw : cfg.quietWindow ≤ w + 1) :
    assemblerStep cfg ⟨.awaiting generation quantity buffer (some w) elapsed, next⟩ .tick = (⟨.idle, next⟩, .complete buffer) := by
  simp [assemblerStep, passTime, Nat.not_le.2 hd, ha, hw]

/-- Before either timer fires, a time unit only passes (43_environment.md rules R120 and R124). -/
theorem assemblerStep_tick_waits (hd : elapsed + 1 < cfg.deadline) (hw : ∀ w ∈ quiet, w + 1 < cfg.quietWindow) :
    assemblerStep cfg ⟨.awaiting generation quantity buffer quiet elapsed, next⟩ .tick =
      (⟨.awaiting generation quantity buffer (quiet.map (· + 1)) (elapsed + 1), next⟩, .nothing) := by
  have hquiet : quiet.any (fun w => decide (cfg.quietWindow ≤ w + 1)) = false := by
    cases quiet with
    | none => rfl
    | some w => exact decide_eq_false (Nat.not_le.2 (hw w rfl))
  simp [assemblerStep, passTime, Nat.not_le.2 hd, hquiet]

/-- A time unit completes nothing where the quiet window does not decide (43_environment.md rule R125). -/
theorem assemblerStep_tick_ne_complete (ha : windowApplies cfg quantity buffer = false) (bytes : List Byte) :
    (assemblerStep cfg ⟨.awaiting generation quantity buffer quiet elapsed, next⟩ .tick).2 ≠ .complete bytes := by
  by_cases hd : cfg.deadline ≤ elapsed + 1
  · rw [assemblerStep_tick_deadline hd]
    exact nofun
  · simp [assemblerStep, passTime, hd, ha]

/-- A chunk with which the length-driven check is met completes the frame (43_environment.md rule R125). -/
theorem assemblerStep_chunk_complete {bytes : List Byte} (hb : bytes ≠ []) (hl : lengthReached cfg quantity (buffer ++ bytes) = true) :
    assemblerStep cfg ⟨.awaiting generation quantity buffer quiet elapsed, next⟩ (.chunk generation bytes) =
      (⟨.idle, next⟩, .complete (buffer ++ bytes)) := by
  simp [assemblerStep, acceptChunk, hb, hl]

/-- Without the length-driven check a chunk is only appended (43_environment.md rules R120 and R121). -/
theorem assemblerStep_chunk_append {bytes : List Byte} (hb : bytes ≠ []) (hl : cfg.lengthDriven = false) :
    assemblerStep cfg ⟨.awaiting generation quantity buffer quiet elapsed, next⟩ (.chunk generation bytes) =
      (⟨.awaiting generation quantity (buffer ++ bytes) (some 0) elapsed, next⟩, .nothing) := by
  simp [assemblerStep, acceptChunk, lengthReached, hb, hl]

/-- A buffer at least as long as expected meets the length-driven check (43_environment.md rule R125). -/
theorem lengthReached_of_le {n : Nat} (hl : cfg.lengthDriven = true) (he : expectedLength quantity buffer = some n)
    (hn : n ≤ buffer.length) : lengthReached cfg quantity buffer = true := by
  simp [lengthReached, hl, he, hn]

end transitions

/-- Settles O50: a known length takes the decision from the quiet window, and gives it to the chunk that reaches it. -/
theorem knownLengthIsAwaited : Obligations.KnownLengthIsAwaited := by
  unfold Obligations.KnownLengthIsAwaited
  rintro cfg ⟨_, next⟩ generation quantity elapsed buffer quiet hl rfl
  refine ⟨fun n he => ?known, fun w he hq hw hd => ?unknown, fun n chunk he hc hn => ?reached⟩
  case known => exact assemblerStep_tick_ne_complete (by simp [windowApplies, hl, he])
  case unknown => rw [hq, assemblerStep_tick_window hd (by simp [windowApplies, he]) hw]
  case reached => rw [assemblerStep_chunk_complete hc (lengthReached_of_le hl he hn)]

/-! ### Runs -/

theorem assemblerRun_append (cfg : AssemblerConfig) (st : AssemblerState) (first second : List AssemblerEvent) :
    assemblerRun cfg st (first ++ second) =
      ((assemblerRun cfg (assemblerRun cfg st first).1 second).1,
        (assemblerRun cfg st first).2 ++ (assemblerRun cfg (assemblerRun cfg st first).1 second).2) := by
  induction first generalizing st with
  | nil => rfl
  | cons ev first ih => simp only [List.cons_append, assemblerRun, ih]

/-- The events of one delivery: its gap, then its chunk. -/
def deliveryEvents (generation : Nat) (d : Nat × List Byte) : List AssemblerEvent :=
  List.replicate d.1 .tick ++ [.chunk generation d.2]

section runs

variable {cfg : AssemblerConfig} {generation quantity next : Nat}

/-- Time units before either timer fires (43_environment.md rules R120 and R124). -/
theorem assemblerRun_ticks {buffer : List Byte} (k : Nat) {quiet : Option Nat} {elapsed : Nat} (hd : elapsed + k < cfg.deadline)
    (hw : ∀ w ∈ quiet, w + k < cfg.quietWindow) :
    assemblerRun cfg ⟨.awaiting generation quantity buffer quiet elapsed, next⟩ (List.replicate k .tick) =
      (⟨.awaiting generation quantity buffer (quiet.map (· + k)) (elapsed + k), next⟩, List.replicate k .nothing) := by
  induction k generalizing quiet elapsed with
  | zero => simp [assemblerRun]
  | succ k ih =>
    have hfirst : ∀ w ∈ quiet, w + 1 < cfg.quietWindow := fun w hm => by
      have := hw w hm
      omega
    have hrest : ∀ w ∈ quiet.map (· + 1), w + k < cfg.quietWindow := fun w hm => by
      obtain ⟨v, hv, rfl⟩ := Option.mem_map.1 hm
      have := hw v hv
      omega
    rw [List.replicate_succ, assemblerRun, assemblerStep_tick_waits (by omega) hfirst]
    simp only [ih (by omega : elapsed + 1 + k < cfg.deadline) hrest, Option.map_map, Function.comp_def, Nat.add_assoc,
      Nat.add_comm 1 k, List.replicate_succ]

/-- A delivery inside both timers is appended to the buffer (43_environment.md rules R120 and R121). -/
theorem assemblerRun_delivery {buffer : List Byte} {quiet : Option Nat} {elapsed : Nat} (d : Nat × List Byte)
    (hl : cfg.lengthDriven = false) (hb : d.2 ≠ []) (hd : elapsed + d.1 < cfg.deadline)
    (hw : ∀ w ∈ quiet, w + d.1 < cfg.quietWindow) :
    assemblerRun cfg ⟨.awaiting generation quantity buffer quiet elapsed, next⟩ (deliveryEvents generation d) =
      (⟨.awaiting generation quantity (buffer ++ d.2) (some 0) (elapsed + d.1), next⟩, List.replicate (d.1 + 1) .nothing) := by
  rw [deliveryEvents, assemblerRun_append, assemblerRun_ticks d.1 hd hw]
  simp only [assemblerRun, assemblerStep_chunk_append hb hl, List.replicate_succ']

/-- Deliveries one after another, each inside the quiet window since the chunk before it (43_environment.md rule R121). -/
theorem assemblerRun_deliveries (hl : cfg.lengthDriven = false) (deliveries : List (Nat × List Byte)) {buffer : List Byte}
    {elapsed : Nat} (hds : ∀ d ∈ deliveries, d.1 < cfg.quietWindow ∧ d.2 ≠ [])
    (hd : elapsed + (deliveries.map Prod.fst).sum < cfg.deadline) :
    ∃ before, assemblerRun cfg ⟨.awaiting generation quantity buffer (some 0) elapsed, next⟩
        (deliveries.flatMap (deliveryEvents generation)) =
      (⟨.awaiting generation quantity (buffer ++ (deliveries.map Prod.snd).flatten) (some 0)
        (elapsed + (deliveries.map Prod.fst).sum), next⟩, List.replicate before .nothing) := by
  induction deliveries generalizing buffer elapsed with
  | nil => exact ⟨0, by simp [assemblerRun]⟩
  | cons d deliveries ih =>
    obtain ⟨hgap, hb⟩ := hds d List.mem_cons_self
    rw [List.map_cons, List.sum_cons] at hd
    obtain ⟨before, hrest⟩ := ih (buffer := buffer ++ d.2) (elapsed := elapsed + d.1)
      (fun d' hm => hds d' (List.mem_cons_of_mem d hm)) (by omega)
    refine ⟨d.1 + 1 + before, ?_⟩
    rw [List.flatMap_cons, assemblerRun_append, assemblerRun_delivery d hl hb (by omega) (by simpa using hgap), hrest]
    simp [Nat.add_assoc]

/-- A whole quiet window after a chunk hands the buffer over (43_environment.md rules R120 and R121). -/
theorem assemblerRun_window {buffer : List Byte} {elapsed : Nat} (hl : cfg.lengthDriven = false) (hw : 0 < cfg.quietWindow)
    (hd : elapsed + cfg.quietWindow < cfg.deadline) :
    assemblerRun cfg ⟨.awaiting generation quantity buffer (some 0) elapsed, next⟩ (List.replicate cfg.quietWindow .tick) =
      (⟨.idle, next⟩, List.replicate (cfg.quietWindow - 1) .nothing ++ [.complete buffer]) := by
  obtain ⟨k, hk⟩ := Nat.exists_eq_add_one.2 hw
  have ha : windowApplies cfg quantity buffer = true := by simp [windowApplies, hl]
  have hquiet : ∀ w ∈ some 0, w + k < cfg.quietWindow := by simp [hk]
  rw [hk, List.replicate_succ', assemblerRun_append, assemblerRun_ticks k (by omega) hquiet]
  simp only [assemblerRun, Option.map_some, Nat.add_sub_cancel,
    assemblerStep_tick_window (by omega : elapsed + k + 1 < cfg.deadline) ha (by omega : cfg.quietWindow ≤ 0 + k + 1)]

/-- A wait in which nothing arrives ends with the deadline (43_environment.md rule R124). -/
theorem assemblerRun_deadline {buffer : List Byte} (hd : 0 < cfg.deadline) :
    assemblerRun cfg ⟨.awaiting generation quantity buffer none 0, next⟩ (List.replicate cfg.deadline .tick) =
      (⟨.idle, next⟩, List.replicate (cfg.deadline - 1) .nothing ++ [.timedOut]) := by
  obtain ⟨k, hk⟩ := Nat.exists_eq_add_one.2 hd
  rw [hk, List.replicate_succ', assemblerRun_append, assemblerRun_ticks k (by omega) (by simp)]
  simp only [assemblerRun, Nat.add_sub_cancel, assemblerStep_tick_deadline (by omega : cfg.deadline ≤ 0 + k + 1)]

end runs

/-- Settles O48: the first chunk meets no quiet window, each later one comes before it has elapsed, and then it elapses. -/
theorem chunkBoundariesDoNotMatter : Obligations.ChunkBoundariesDoNotMatter := by
  unfold Obligations.ChunkBoundariesDoNotMatter
  rintro window deadline quantity generation deliveries ⟨_, next⟩ cfg rfl hne hds hsum events
  obtain ⟨d, rest, rfl⟩ := List.exists_cons_of_ne_nil hne
  obtain ⟨hgap, hb⟩ := hds d List.mem_cons_self
  rw [List.map_cons, List.sum_cons] at hsum
  have hevents : events = deliveryEvents generation d ++ (rest.flatMap (deliveryEvents generation)
      ++ List.replicate cfg.quietWindow .tick) := List.append_assoc ..
  have hdeadline : d.1 + (rest.map Prod.fst).sum + cfg.quietWindow < cfg.deadline := hsum
  obtain ⟨before, hrest⟩ := assemblerRun_deliveries (cfg := cfg) (generation := generation) (quantity := quantity) (next := next)
    (buffer := [] ++ d.2) (elapsed := 0 + d.1) rfl rest (fun d' hm => hds d' (List.mem_cons_of_mem d hm)) (by omega)
  rw [hevents, assemblerRun_append, assemblerRun_delivery d rfl hb (by omega) (by simp), assemblerRun_append, hrest,
    assemblerRun_window rfl (Nat.zero_lt_of_lt hgap) (by omega)]
  refine ⟨rfl, d.1 + 1 + (before + (cfg.quietWindow - 1)), ?_⟩
  simp [← List.append_assoc]

end Sys2Proof.Machine
end

section
/-! PROOFS. The engine (43_environment.md rules R115, R124, R135, R136 and R140): how a wait ends, what one exchange can do, and the session. -/

namespace Sys2Proof.Machine

/-! ### How a wait ends -/

/-- An event that ends the wait at once (43_environment.md rules R121 and R124). -/
theorem awaitResponse_cons_of_ends {cfg : AssemblerConfig} {st st' : AssemblerState} {ev : AssemblerEvent} {out : AssemblerOutput}
    {ending : AwaitEnd} (hstep : assemblerStep cfg st ev = (st', out)) (hends : out.ends = some ending) (now : Nat)
    (rest : List AssemblerEvent) : awaitResponse cfg st now (ev :: rest) = (st', now + ev.duration, some ending) := by
  rw [awaitResponse, List.cons_append, awaitEnd_cons, hstep, hends]

/-- Silence from the start of a wait reaches the deadline, since no quiet window is running (43_environment.md rules R120 and R124). -/
theorem awaitEnd_ticks_timedOut (cfg : AssemblerConfig) (generation quantity next : Nat) (buffer : List Byte) (k : Nat) :
    ∀ now elapsed : Nat, cfg.deadline ≤ elapsed + k + 1 →
      ∃ now', awaitEnd cfg ⟨.awaiting generation quantity buffer none elapsed, next⟩ now (List.replicate (k + 1) .tick) =
        (⟨.idle, next⟩, now', some .timedOut) := by
  induction k with
  | zero =>
    intro now elapsed hk
    exact ⟨now + 1, by rw [List.replicate_succ, awaitEnd_cons, assemblerStep_tick_deadline hk]; rfl⟩
  | succ k ih =>
    intro now elapsed hk
    rw [List.replicate_succ, awaitEnd_cons]
    by_cases hd : cfg.deadline ≤ elapsed + 1
    · exact ⟨now + 1, by rw [assemblerStep_tick_deadline hd]; rfl⟩
    · rw [assemblerStep_tick_waits (by omega) (by simp)]
      exact ih (now + 1) (elapsed + 1) (by omega)

/-- A wait in which nothing arrives at all ends in `TimedOut` (43_environment.md rule R124). -/
theorem awaitResponse_nil (cfg : AssemblerConfig) (generation quantity next : Nat) (buffer : List Byte) (now : Nat) :
    ∃ now', awaitResponse cfg ⟨.awaiting generation quantity buffer none 0, next⟩ now [] = (⟨.idle, next⟩, now', some .timedOut) :=
  awaitEnd_ticks_timedOut cfg generation quantity next buffer cfg.deadline now 0 (by omega)

/-- A Transport error ends the wait (43_environment.md rules R116 and R142; assumption 9). -/
theorem awaitResponse_transportError (cfg : AssemblerConfig) (generation quantity next : Nat) (buffer : List Byte) (now : Nat) :
    awaitResponse cfg ⟨.awaiting generation quantity buffer none 0, next⟩ now [.transportError] =
      (⟨.idle, next⟩, now, some .transportFailed) :=
  awaitResponse_cons_of_ends assemblerStep_transportError rfl now []

/-- A chunk that is as long as its own format says ends the wait (43_environment.md rule R125). -/
theorem awaitResponse_chunk {cfg : AssemblerConfig} {generation quantity next n : Nat} {bytes : List Byte}
    (hl : cfg.lengthDriven = true) (he : expectedLength quantity bytes = some n) (hn : n ≤ bytes.length) (now : Nat) :
    awaitResponse cfg ⟨.awaiting generation quantity [] none 0, next⟩ now [.chunk generation bytes] =
      (⟨.idle, next⟩, now, some (.complete bytes)) := by
  have hb : bytes ≠ [] := by
    rintro rfl
    cases he
  exact awaitResponse_cons_of_ends (assemblerStep_chunk_complete hb (lengthReached_of_le hl he hn)) rfl now []

/-! ### Transmissions -/

/-- A write that the link refuses (43_environment.md rule R116; assumption 13). -/
theorem transmit_of_writeError {cfg : EngineConfig} {link : Link} {quantity : Nat} {frame : List Byte} {e : Engine}
    (h : e.assembler.phase = .idle) (hlink : link e.assembler.nextGeneration e.now frame = none) :
    e.transmit cfg link quantity frame = e.complete.fail := by
  rw [Engine.transmit, h]
  simp only [hlink]

/-- A write, a wait that ends, and what is received (43_environment.md rules R120 and R136). -/
theorem transmit_of_await {cfg : EngineConfig} {link : Link} {quantity now : Nat} {frame : List Byte} {e : Engine}
    {events : List AssemblerEvent} {st : AssemblerState} {ending : AwaitEnd} (h : e.assembler.phase = .idle)
    (hlink : link e.assembler.nextGeneration e.now frame = some events)
    (hwait : awaitResponse cfg.assembler ⟨.awaiting e.assembler.nextGeneration quantity [] none 0, e.assembler.nextGeneration + 1⟩
      e.now events = (st, now, some ending)) :
    e.transmit cfg link quantity frame = ({ e with assembler := st, now := now } : Engine).complete.receive ending := by
  rw [Engine.transmit, h]
  simp only [hlink, assemblerStep_write _ _ _ h, hwait, Option.bind_some]

/-- A transmission asks the link once, at the time of the write (43_environment.md rule R120). -/
theorem transmit_congr {link link' : Link} {frame : List Byte} {e : Engine}
    (h : link e.assembler.nextGeneration e.now frame = link' e.assembler.nextGeneration e.now frame) (cfg : EngineConfig)
    (quantity : Nat) : e.transmit cfg link quantity frame = e.transmit cfg link' quantity frame := by
  rw [Engine.transmit, Engine.transmit, h]

/-- An exchange that has been written completes, no earlier than it was written (43_environment.md rule R135; assumption 13). -/
theorem transmit_times {cfg : EngineConfig} {link : Link} {quantity : Nat} {frame : List Byte} {e e' : Engine} {r : ExchangeResult}
    (h : e.transmit cfg link quantity frame = some (e', r)) : e.now ≤ e'.now ∧ e'.completedAt = some e'.now := by
  cases hp : e.assembler.phase with
  | awaiting => simp [Engine.transmit, hp] at h
  | idle =>
    obtain ⟨-, ht⟩ | ⟨events, st, now, ending, -, -, -, hnow, ht⟩ := transmit_idle cfg link quantity frame e hp
    · rw [ht] at h
      obtain ⟨rfl, -⟩ := Prod.mk.inj (Option.some.inj h)
      exact ⟨Nat.le_refl _, rfl⟩
    · rw [ht] at h
      obtain ⟨hn, hc⟩ := receive_times h
      rw [hn, hc]
      exact ⟨hnow, rfl⟩

/-- A wait that a Transport error ended is received as a lost connection (43_environment.md rule R142). -/
theorem receive_transportFailed (e : Engine) : e.receive .transportFailed = e.fail := rfl

/-- Under an exchange the connection of a live session is lost (43_environment.md rules R140 and R142). -/
theorem fail_of_live {e : Engine} (h : e.connection = .live) :
    e.fail = some ({ e with connection := .ended }, .error .connectionError) := by
  simp [Engine.fail, h, Connection.lose]

/-- The words of a data response are received, and the block holds them (43_environment.md rule R136). -/
theorem receive_complete {e : Engine} {bytes : List Byte} {addr func : Byte} {words : List Word}
    (hcap : bytes.length ≤ e.block.params.rxCapacity) (hr : decodeResponse bytes = .ok addr func words) :
    e.receive (.complete bytes) = some ({ e with block := e.block.writeRegisters addr func words }, .ok words) := by
  have hview := decView_writeRegisters e.block addr func words (length_le_of_decodeResponse_eq_ok hr)
  simp [Engine.receive, exec_decResp_of_decodeResponse e.block hcap hr, hview, responseOf]

/-! ### Exchanges -/

/-- Without a live session an exchange fails fast (43_environment.md rule R140). -/
theorem exchange_of_not_live (cfg : EngineConfig) (link : Link) (request : ReadRequest) {e : Engine} (h : e.connection ≠ .live) :
    exchange cfg link request e = some (e, .error .notConnected) := by
  unfold exchange
  cases hc : e.connection with
  | live => exact absurd hc h
  | notOpen => rfl
  | ended => rfl

/-- A request that the block rejects is never written (43_environment.md rule R136). -/
theorem exchange_out_of_range (cfg : EngineConfig) (link : Link) {request : ReadRequest} {e : Engine} (hc : e.connection = .live)
    (h : slaveInRange request.slaveId = false ∨ quantityInRange request.quantity = false) :
    exchange cfg link request e = some ({ e with block := e.block.failEncoder .invalidParameter }, .error .invalidParameter) := by
  have hexec : exec request.instr e.block = .next (e.block.failEncoder .invalidParameter) := by
    rw [ReadRequest.instr, exec_encRead, encodeRead_invalid _ _ _ _ h, latchEnc_invalid]
  have hview : (e.block.failEncoder .invalidParameter).encView = some .invalidParameter := rfl
  simp [exchange, hc, hexec, hview, requestOf]

/-- The frame of a request (30_encoding.md rule R48). -/
def requestFrame (r : ReadRequest) : List Byte := withOwnCrc (requestBody r.slaveId r.func r.startAddr r.quantity)

/-- The engine when it writes a request: the frame stands in `TX`, and the delay has passed (43_environment.md rules R135 and R136). -/
def Engine.atWrite (delay : Nat) (r : ReadRequest) (e : Engine) : Engine :=
  ({ e with block := e.block.writeFrame (requestFrame r) } : Engine).pace delay

@[simp] theorem atWrite_block (delay : Nat) (r : ReadRequest) (e : Engine) :
    (e.atWrite delay r).block = e.block.writeFrame (requestFrame r) := pace_block delay _

@[simp] theorem atWrite_assembler (delay : Nat) (r : ReadRequest) (e : Engine) : (e.atWrite delay r).assembler = e.assembler :=
  pace_assembler delay _

@[simp] theorem atWrite_connection (delay : Nat) (r : ReadRequest) (e : Engine) : (e.atWrite delay r).connection = e.connection :=
  pace_connection delay _

@[simp] theorem atWrite_completedAt (delay : Nat) (r : ReadRequest) (e : Engine) :
    (e.atWrite delay r).completedAt = e.completedAt := pace_completedAt delay _

theorem atWrite_now (delay : Nat) (r : ReadRequest) (e : Engine) : e.now ≤ (e.atWrite delay r).now :=
  pace_now delay { e with block := e.block.writeFrame (requestFrame r) }

/-- A request is written no earlier than the delay after the previous completion (43_environment.md rule R135). -/
theorem delay_le_atWrite_now {delay c : Nat} (r : ReadRequest) {e : Engine} (h : e.completedAt = some c) :
    c + delay ≤ (e.atWrite delay r).now := by
  have hissue : mayIssue delay (e.atWrite delay r).completedAt (e.atWrite delay r).now = true := pace_mayIssue delay _
  rw [atWrite_completedAt, h] at hissue
  exact of_decide_eq_true hissue

/-- An exchange on a live session for a request in range (43_environment.md rule R136). -/
theorem exchange_of_in_range (cfg : EngineConfig) (link : Link) {r : ReadRequest} {e : Engine} (hc : e.connection = .live)
    (ha : slaveInRange r.slaveId = true) (hq : quantityInRange r.quantity = true) :
    exchange cfg link r e = (e.atWrite cfg.commandDelay r).transmit cfg link r.quantity.toNat (requestFrame r) :=
  exchange_in_range cfg link r e hc ha hq

/-- Everything an exchange can do: fail at once, with nothing written and no time passed, or transmit its frame
(43_environment.md rules R136 and R140). -/
theorem exchange_cases (cfg : EngineConfig) (r : ReadRequest) (e : Engine) :
    (∃ e₀ k, e₀.now = e.now ∧ e₀.completedAt = e.completedAt ∧ ∀ link, exchange cfg link r e = some (e₀, .error k))
    ∨ ∀ link, exchange cfg link r e = (e.atWrite cfg.commandDelay r).transmit cfg link r.quantity.toNat (requestFrame r) := by
  by_cases hc : e.connection = .live
  · obtain ⟨ha, hq, -⟩ | ⟨hout, -⟩ := encodeRead_cases r.slaveId r.func r.startAddr r.quantity
    · exact .inr fun link => exchange_of_in_range cfg link hc ha hq
    · exact .inl ⟨{ e with block := e.block.failEncoder .invalidParameter }, .invalidParameter, rfl, rfl,
        fun link => exchange_out_of_range cfg link hc hout⟩
  · exact .inl ⟨e, .notConnected, rfl, rfl, fun link => exchange_of_not_live cfg link r hc⟩

/-- Two links that agree from the end of the delay on give the same exchange (43_environment.md rule R135). -/
theorem exchange_congr {cfg : EngineConfig} {link link' : Link} {r : ReadRequest} {e : Engine}
    (h : ∀ generation now frame, (∀ c, e.completedAt = some c → c + cfg.commandDelay ≤ now) →
      link generation now frame = link' generation now frame) :
    exchange cfg link r e = exchange cfg link' r e := by
  obtain ⟨e₀, k, -, -, hfail⟩ | hwrite := exchange_cases cfg r e
  · rw [hfail, hfail]
  · rw [hwrite, hwrite]
    exact transmit_congr (h _ _ _ fun c hcomp => delay_le_atWrite_now r hcomp) cfg _

/-- An exchange does not go back in time, and either it has completed, now, or no exchange has (43_environment.md rule R135). -/
theorem exchange_times {cfg : EngineConfig} {link : Link} {r : ReadRequest} {e e' : Engine} {result : ExchangeResult}
    (h : exchange cfg link r e = some (e', result)) :
    e.now ≤ e'.now ∧ (e'.completedAt = e.completedAt ∨ e'.completedAt = some e'.now) := by
  obtain ⟨e₀, k, hnow, hcomp, hfail⟩ | hwrite := exchange_cases cfg r e
  · rw [hfail] at h
    obtain ⟨rfl, -⟩ := Prod.mk.inj (Option.some.inj h)
    exact ⟨hnow.ge, .inl hcomp⟩
  · rw [hwrite] at h
    obtain ⟨hnow, hcomp⟩ := transmit_times h
    exact ⟨Nat.le_trans (atWrite_now cfg.commandDelay r e) hnow, .inr hcomp⟩

/-- Settles O52: the one write of an exchange comes after the pacing, and the links agree there. -/
theorem exchangesKeepTheDelay : Obligations.ExchangesKeepTheDelay := by
  unfold Obligations.ExchangesKeepTheDelay
  exact fun cfg link link' request e h => ⟨exchange_congr h, fun e' r => exchange_times⟩

/-- Settles O49: a stale chunk is discarded, silence runs into the deadline, and a timeout hands nothing to the decoder. -/
theorem staleAndMissingBytesChangeNothing : Obligations.StaleAndMissingBytesChangeNothing := by
  unfold Obligations.StaleAndMissingBytesChangeNothing
  refine ⟨?stale, ?idle, ?deadline, ?caller, ?silent⟩
  case stale =>
    rintro cfg ⟨_, next⟩ generation quantity g buffer bytes quiet elapsed rfl hg
    exact assemblerStep_chunk_stale bytes hg
  case idle =>
    rintro cfg ⟨_, next⟩ g bytes rfl
    exact assemblerStep_chunk_idle cfg next g bytes
  case deadline =>
    rintro cfg ⟨_, next⟩ generation quantity hd rfl
    rw [assemblerRun_deadline hd]
    exact ⟨rfl, rfl⟩
  case caller =>
    rintro cfg ⟨_, next⟩ generation quantity elapsed buffer quiet rfl
    exact assemblerStep_callerTimeout
  case silent =>
    intro cfg request e hc hp ha hq
    have hidle : (e.atWrite cfg.commandDelay request).assembler.phase = .idle := by rwa [atWrite_assembler]
    obtain ⟨now', hwait⟩ := awaitResponse_nil cfg.assembler (e.atWrite cfg.commandDelay request).assembler.nextGeneration
      request.quantity.toNat ((e.atWrite cfg.commandDelay request).assembler.nextGeneration + 1) []
      (e.atWrite cfg.commandDelay request).now
    rw [exchange_of_in_range cfg _ hc ha hq, transmit_of_await hidle rfl hwait]
    refine ⟨_, rfl, ?_, rfl⟩
    rw [complete_block, atWrite_block]
    exact sameDecoder_latchEnc e.block (.ok (requestFrame request))

/-! ### Reads -/

/-- An exchange that succeeds is a read, with the words interpreted (43_environment.md rule R136). -/
theorem readQuantity_of_ok {cfg : EngineConfig} {link : Link} {q : Quantity} {e e' : Engine} {words : List Word}
    (h : exchange cfg link (requestFor cfg.slaveId q) e = some (e', .ok words)) :
    readQuantity cfg link q e =
      some (e', .ok { quantity := q, words := words, value := decodeQuantity cfg.zeroWhenEmpty q words }) := by
  rw [readQuantity, exchangeWithRetries_of_ok h]
  rfl

/-- Settles O51: the response is as long as the request makes it expected, so its chunk completes the frame, which decodes to its words. -/
theorem readsRunTheWholeFlow : Obligations.ReadsRunTheWholeFlow := by
  unfold Obligations.ReadsRunTheWholeFlow
  intro cfg q e addr func words hc hp ha hl hf hspan hcap body response
  have hwords : words.length ≤ 127 := by
    obtain h | h := span_cases q <;> omega
  have hlen : response.length = 5 + 2 * words.length :=
    (length_responseFields addr func _ (wordsToBytes words) (crc16 body)).trans (by rw [length_wordsToBytes])
  have hexpected : expectedLength (requestFor cfg.slaveId q).quantity.toNat response = some (5 + 2 * words.length) := by
    rw [toNat_requestFor_quantity, ← hspan]
    exact congrArg some (if_neg (by rw [hf]; exact Bool.false_ne_true))
  have hdecode : decodeResponse response = .ok addr func words := decodeResponse_dataResponse addr func words hf hwords
  have hidle : (e.atWrite cfg.commandDelay (requestFor cfg.slaveId q)).assembler.phase = .idle := by rwa [atWrite_assembler]
  have hexchange := exchange_of_in_range cfg (fun generation _ _ => some [.chunk generation response]) hc ha
    (quantityInRange_requestFor cfg.slaveId q)
  rw [transmit_of_await hidle rfl (awaitResponse_chunk hl hexpected hlen.ge _),
    receive_complete (by rw [hlen, complete_block, atWrite_block]; exact hcap) hdecode] at hexchange
  exact ⟨_, readQuantity_of_ok hexchange, decView_writeRegisters _ addr func words hwords, rfl,
    (atWrite_connection cfg.commandDelay _ e).trans hc, rfl⟩

/-! ### The session -/

/-- A closed connection is not live (43_environment.md rule R140). -/
theorem close_ne_live (c : Connection) : c.close ≠ .live := by
  cases c <;> exact nofun

/-- Whatever a session runs, its connection has been closed (43_environment.md rule R140). -/
theorem withSession_connection {α : Type} {ready : Bool} {run : Engine → Answer α} {e e' : Engine} {r : Except SystemError α}
    (h : withSession ready run e = some (e', r)) : ∃ c : Connection, e'.connection = c.close := by
  unfold withSession at h
  split at h
  · obtain ⟨rfl, -⟩ := Prod.mk.inj (Option.some.inj h)
    exact ⟨_, rfl⟩
  · obtain ⟨_, -, hr⟩ := Option.map_eq_some_iff.1 h
    obtain ⟨rfl, -⟩ := Prod.mk.inj hr
    exact ⟨_, rfl⟩

/-- Settles O53: every path of a session closes the connection, and both kinds of transport failure lose it. -/
theorem sessionsAreReleased : Obligations.SessionsAreReleased := by
  unfold Obligations.SessionsAreReleased
  refine ⟨fun α ready run e e' r h => ?released, fun run e h => ?unopened, fun cfg link request e => exchange_of_not_live cfg link request,
    fun cfg link request e hc hp ha hq hlink => ?failed⟩
  case released =>
    obtain ⟨c, hclosed⟩ := withSession_connection h
    rw [hclosed]
    exact close_ne_live c
  case unopened =>
    rw [withSession, h]
    exact ⟨_, rfl⟩
  case failed =>
    have hidle : (e.atWrite cfg.commandDelay request).assembler.phase = .idle := by rwa [atWrite_assembler]
    have hlive : (e.atWrite cfg.commandDelay request).connection = .live := by rwa [atWrite_connection]
    rw [exchange_of_in_range cfg link hc ha hq]
    obtain hnone | hsome := hlink _ _ _
    · rw [transmit_of_writeError hidle hnone]
      exact ⟨_, fail_of_live hlive, rfl⟩
    · rw [transmit_of_await hidle hsome (awaitResponse_transportError ..), receive_transportFailed]
      exact ⟨_, fail_of_live hlive, rfl⟩

end Sys2Proof.Machine
end
